-- ==== Sys2Proof/Word.lean ====
section
/-! DEFINITION. The word types of the engine: bytes of IN and OUT, 32-bit registers (R4, R5, R10). -/

namespace Sys2Proof

/-- One byte: the unit of both memories and of the data path (R4, R29). -/
abbrev Byte := BitVec 8

/-- An address, cursor, length or header field, `ADDR_W` = 32 bits (R4). -/
abbrev Word := BitVec 32

end Sys2Proof
end

