-- ==== Sys2Proof/Syntax.lean ====
section
/-! DEFINITION. The tokens of the container, one constructor per row of the opcode table (R67). -/

namespace Sys2Proof

/-- The engine's instructions: the header record and the three kinds of token (R60, R67). -/
inductive Instr where
  /-- `HDR`: the header's three fields; the tag is ignored and so is no operand (R61, R80). -/
  | hdr (decodedSize linkTableOffset byteChunkOffset : Word)
  /-- `LIT b`: a literal byte (R126). -/
  | lit (b : Byte)
  /-- `REFS`: a short back-reference, length field 1 .. 15, run length 3 .. 17 (R101). -/
  | refs (lengthField : BitVec 4) (distance : BitVec 12)
  /-- `REFX`: an extended back-reference, extension byte `e`, run length 18 .. 273 (R102). -/
  | refx (distance : BitVec 12) (e : Byte)
  deriving DecidableEq, Repr

end Sys2Proof
end

