-- ==== Sys2Proof/WellFormed.lean ====
section
/-! DEFINITION. Which terms of Instr stand for a token of the container (R66, R67). -/

namespace Sys2Proof

/-- A `REFS` has a length field of 1 .. 15, since 0 selects `REFX` (R63, R67); every other operand
value is legal (R68). -/
def Instr.wellFormed : Instr → Bool
  | .hdr _ _ _ => true
  | .lit _ => true
  | .refs lengthField _ => decide (lengthField ≠ 0)
  | .refx _ _ => true

end Sys2Proof
end

