-- ==== Sys2Proof/Decode.lean ====
section
/-! DEFINITION. The container's encodings (spec/30_encoding.md): its numeric constants, the decoder
of a header and of a token, the encoder, the opcode map, the token notation and the canonical
container. -/

namespace Sys2Proof

/-! ## The container's constants (R4, R65, D24) -/

/-- `HEADER_SIZE`: the header's length, and the offset of the first mask word. -/
def headerSize : Nat := 16

/-- `MASK_WORD_BITS`: control bits in one mask word. -/
def maskWordBits : Nat := 32

/-- The bytes of one mask word. -/
def maskWordBytes : Nat := 4

/-- The bytes of one link code. -/
def linkCodeBytes : Nat := 2

/-- The offset of `decodedSize`, where the header fields the engine reads begin (R61). -/
def headerFieldsOffset : Nat := 4

/-- The bytes of the three header fields the engine reads. -/
def headerFieldsSize : Nat := 12

/-- What the short form adds to the length field (R65). -/
def shortRunBias : Nat := 2

/-- What the extended form adds to the extension byte (R65). -/
def extendedRunBias : Nat := 18

/-! ## Byte order and fields (R40, R41, R63, R103) -/

/-- Two bytes, the lower address more significant (R40, R41). -/
def be16 (b0 b1 : Byte) : BitVec 16 := b0 ++ b1

/-- Four bytes, the lowest address most significant (R40, R41). -/
def be32 (b0 b1 b2 b3 : Byte) : Word := be16 b0 b1 ++ be16 b2 b3

/-- `distance = code & 0xFFF` (R63, R103). -/
def linkDistance (code : BitVec 16) : BitVec 12 := (code &&& 0xFFF#16).setWidth 12

/-- `lengthField = code >> 12` (R63, R103). -/
def linkLengthField (code : BitVec 16) : BitVec 4 := (code >>> 12).setWidth 4

/-- Whether the two bytes of a link code select the extended form, whose extension byte must
then be read (R67, R70). -/
def needsExtension : List Byte → Bool
  | b0 :: b1 :: _ => decide (linkLengthField (be16 b0 b1) = 0)
  | _ => false

/-! ## The decoder -/

/-- Why bytes are no instruction. No bit pattern is illegal (R68): a piece can only be missing. -/
inductive Reject where
  /-- Fewer than 16 header bytes (R81). -/
  | headerTooShort
  /-- No byte for a literal (R92). -/
  | literalByteMissing
  /-- Fewer than two bytes for a link code (R93). -/
  | linkCodeTooShort
  /-- No extension byte after a link code with length field 0 (R100 step 3). -/
  | extensionByteMissing
  deriving DecidableEq, Repr

/-- The three header fields from the twelve bytes at offsets 4 .. 15 (R61, R80). -/
def decodeHeaderFields : List Byte → Except Reject Instr
  | a0 :: a1 :: a2 :: a3 :: b0 :: b1 :: b2 :: b3 :: c0 :: c1 :: c2 :: c3 :: _ =>
    .ok (.hdr (be32 a0 a1 a2 a3) (be32 b0 b1 b2 b3) (be32 c0 c1 c2 c3))
  | _ => .error .headerTooShort

/-- A header from the container's bytes; the four tag bytes are ignored (R61, R69). -/
def decodeHeader (bytes : List Byte) : Except Reject Instr :=
  decodeHeaderFields (bytes.drop headerFieldsOffset)

/-- A back-reference from the bytes at the link cursor and at the byte-chunk cursor; answers also
what is left of both streams. `REFX` is tested before `REFS` (R65, R67). -/
def decodeBackref : List Byte → List Byte → Except Reject (Instr × List Byte × List Byte)
  | b0 :: b1 :: link, chunk =>
    if linkLengthField (be16 b0 b1) = 0 then
      match chunk with
      | e :: chunk' => .ok (.refx (linkDistance (be16 b0 b1)) e, link, chunk')
      | [] => .error .extensionByteMissing
    else .ok (.refs (linkLengthField (be16 b0 b1)) (linkDistance (be16 b0 b1)), link, chunk)
  | _, _ => .error .linkCodeTooShort

/-- A literal from the bytes at the byte-chunk cursor; the link stream is not touched (R67). -/
def decodeLiteral (link : List Byte) : List Byte → Except Reject (Instr × List Byte × List Byte)
  | b :: chunk => .ok (.lit b, link, chunk)
  | [] => .error .literalByteMissing

/-- A token from its control bit and the two streams; answers also what is left of them
(R67, R70). -/
def decodeToken (c : Bool) (link chunk : List Byte) :
    Except Reject (Instr × List Byte × List Byte) :=
  match c with
  | true => decodeLiteral link chunk
  | false => decodeBackref link chunk

/-- The pieces one instruction is read from: the header record, or a control bit with the bytes
at the link cursor and at the byte-chunk cursor (R60, R70). -/
inductive Pieces where
  | header (bytes : List Byte)
  | token (c : Bool) (link chunk : List Byte)
  deriving DecidableEq, Repr

/-- The decoder: total on any pieces. -/
def decode : Pieces → Except Reject Instr
  | .header bytes => decodeHeader bytes
  | .token c link chunk =>
    match decodeToken c link chunk with
    | .ok r => .ok r.1
    | .error e => .error e

/-! ## The encoder (R61 to R64, R71) -/

/-- The two bytes of a 16-bit value, most significant first (R40). -/
def bytes16 (v : BitVec 16) : List Byte := [v.extractLsb' 8 8, v.extractLsb' 0 8]

/-- The four bytes of a 32-bit value, most significant first (R40). -/
def bytes32 (v : Word) : List Byte :=
  [v.extractLsb' 24 8, v.extractLsb' 16 8, v.extractLsb' 8 8, v.extractLsb' 0 8]

/-- The sixteen header bytes, with any tag (R61). -/
def headerBytes (tag decodedSize linkTableOffset byteChunkOffset : Word) : List Byte :=
  bytes32 tag ++ bytes32 decodedSize ++ bytes32 linkTableOffset ++ bytes32 byteChunkOffset

/-- The link code of a length field and a distance (R63). -/
def linkCode (lengthField : BitVec 4) (distance : BitVec 12) : BitVec 16 :=
  lengthField ++ distance

/-- The bytes an instruction has in the link stream (R67). -/
def linkBytes : Instr → List Byte
  | .hdr _ _ _ => []
  | .lit _ => []
  | .refs lengthField distance => bytes16 (linkCode lengthField distance)
  | .refx distance _ => bytes16 (linkCode 0 distance)

/-- The bytes an instruction has in the byte-chunk stream (R67). -/
def chunkBytes : Instr → List Byte
  | .hdr _ _ _ => []
  | .lit b => [b]
  | .refs _ _ => []
  | .refx _ e => [e]

/-- The control bit of a token; the header record has none (R62, R67). -/
def controlBit : Instr → Option Bool
  | .hdr _ _ _ => none
  | .lit _ => some true
  | .refs _ _ => some false
  | .refx _ _ => some false

/-- The pieces of an instruction; a header is written with tag 0, the default of R72 (log 7). -/
def encode : Instr → Pieces
  | .hdr size link chunk => .header (headerBytes 0 size link chunk)
  | .lit b => .token true [] [b]
  | .refs lengthField distance => .token false (bytes16 (linkCode lengthField distance)) []
  | .refx distance e => .token false (bytes16 (linkCode 0 distance)) [e]

/-! ## The opcode map (R67) -/

/-- The kinds of token the map selects; the header record is not selected by a pattern. -/
inductive TokenKind where
  | lit
  | refx
  | refs
  deriving DecidableEq, Repr

/-- One row of the map: a 17-bit key matches when its bits under `mask` are those of `match_`. -/
structure TokenRow where
  kind : TokenKind
  mask : BitVec 17
  match_ : BitVec 17
  deriving DecidableEq, Repr

/-- The rows in the order a decoder tests them: `REFX` before `REFS` (R67). -/
def tokenTable : List TokenRow :=
  [⟨.lit, 0x10000#17, 0x10000#17⟩, ⟨.refx, 0x1F000#17, 0x00000#17⟩,
    ⟨.refs, 0x10000#17, 0x00000#17⟩]

/-- Whether a key matches a row. -/
def TokenRow.covers (r : TokenRow) (key : BitVec 17) : Bool := decide (key &&& r.mask = r.match_)

/-- The kind the first matching row of the map gives a key (R67). -/
def selectKind (key : BitVec 17) : Option TokenKind :=
  (tokenTable.find? fun r => r.covers key).map TokenRow.kind

/-- The token key `c ++ code` (R67). -/
def tokenKey (c : Bool) (code : BitVec 16) : BitVec 17 := BitVec.ofBool c ++ code

/-- The kind of a token. -/
def Instr.kind : Instr → Option TokenKind
  | .hdr _ _ _ => none
  | .lit _ => some .lit
  | .refs _ _ => some .refs
  | .refx _ _ => some .refx

/-! ## The token notation and the canonical container (R71, R72, D20) -/

/-- A line of the spec's token notation; `ref` is its one pseudo-token (R71). -/
inductive Notated where
  | lit (b : Byte)
  | refs (d n : Nat)
  | refx (d n : Nat)
  | ref (d n : Nat)
  deriving DecidableEq, Repr

/-- `REFS d=D, n=N` with 0 <= D <= 4095 and 3 <= N <= 17 (R71). -/
def assembleRefs (d n : Nat) : Option Instr :=
  if d ≤ 4095 ∧ 3 ≤ n ∧ n ≤ 17 then
    some (.refs (BitVec.ofNat 4 (n - shortRunBias)) (BitVec.ofNat 12 d))
  else none

/-- `REFX d=D, n=N` with 0 <= D <= 4095 and 18 <= N <= 273 (R71). -/
def assembleRefx (d n : Nat) : Option Instr :=
  if d ≤ 4095 ∧ 18 ≤ n ∧ n ≤ 273 then
    some (.refx (BitVec.ofNat 12 d) (BitVec.ofNat 8 (n - extendedRunBias)))
  else none

/-- The token a line of the notation stands for; no expansion exists outside the ranges (R71). -/
def assemble : Notated → Option Instr
  | .lit b => some (.lit b)
  | .refs d n => assembleRefs d n
  | .refx d n => assembleRefx d n
  | .ref d n => if n ≤ 17 then assembleRefs d n else assembleRefx d n

/-- Byte `k` of a mask region: control bits 8k .. 8k+7, first in the most significant place,
unused bits 0 (R42, R72). -/
def maskByte (bits : List Bool) (k : Nat) : Byte :=
  BitVec.ofNat 8
    ((List.range 8).foldl (fun acc j => 2 * acc + (bits.getD (8 * k + j) false).toNat) 0)

/-- How many mask words a number of tokens needs (R72). -/
def maskWordCount (tokens : Nat) : Nat := (tokens + 31) / 32

/-- The mask region of a list of control bits (R72). -/
def maskRegion (bits : List Bool) : List Byte :=
  (List.range (maskWordBytes * maskWordCount bits.length)).map (maskByte bits)

/-- The canonical container of a token list with a tag and a decoded size (R72). -/
def canonicalContainer (tag size : Word) (tokens : List Instr) : List Byte :=
  let mask := maskRegion (tokens.filterMap controlBit)
  let link := tokens.flatMap linkBytes
  let linkTable := headerSize + mask.length
  headerBytes tag size (BitVec.ofNat 32 linkTable) (BitVec.ofNat 32 (linkTable + link.length)) ++
    mask ++ link ++ tokens.flatMap chunkBytes

/-! ## The opcode table's words -/

/-- The sixteen bytes of the table's 128-bit header value `IN[0] ++ … ++ IN[15]` (R61). -/
def headerWordBytes (w : Nat) : List Byte :=
  (List.range 16).map fun k => BitVec.ofNat 8 (w >>> (8 * (15 - k)))

/-- The pieces of a word as spec/opcode_table.json numbers its bits: a row of 128 bits is the
header value, a shorter one the 17-bit token key, whose operand byte the table gives no bits and
is 0; a key above 17 bits does not exist (log 9). -/
def tableWordPieces (nbits w : Nat) : Option Pieces :=
  if nbits ≥ 128 then some (.header (headerWordBytes w))
  else if w ≥ 2 ^ 17 then none
  else if w.testBit 16 then some (.token true [] [0])
  else some (.token false (bytes16 (BitVec.ofNat 16 w)) [0])

/-- The instruction the decoder reads from a word of the opcode table. -/
def decodeTableWord (nbits w : Nat) : Option Instr :=
  match tableWordPieces nbits w with
  | some p =>
    match decode p with
    | .ok i => some i
    | .error _ => none
  | none => none

end Sys2Proof
end

