-- ==== Sys2Proof/Config.lean ====
section
/-! DEFINITION. The parameters of one instance of the hardware (R4). -/

namespace Sys2Proof

/-- What a run that would pass `decodedSize` does (R4, R106). -/
inductive OvershootPolicy where
  /-- The hardware's own: the run is rejected with `OutputSizeMismatch`. -/
  | reject
  /-- The documented alternative: the run is cut at `decodedSize`. -/
  | truncate
  deriving DecidableEq, Repr

/-- The configuration of one instance. State carries it as a field that no step writes, because
`step` has no other argument (DESIGN CHOICE, log 1, safe: a statement over every state holds
for every configuration). -/
structure Config where
  /-- `OUT_CAPACITY`, 0 .. 2^32 - 1: how many bytes OUT has (R4, U8, D11). -/
  outCapacity : Word
  /-- `OVERSHOOT_POLICY` (R4, D7). -/
  overshootPolicy : OvershootPolicy
  deriving DecidableEq, Repr

/-- The instance State.reset describes: `OVERSHOOT_POLICY = Reject` is R4's value; the capacity
2^20 is the one the spec's vectors use (DESIGN CHOICE, log 1, unsafe if a statement rested on
it: none does). -/
def Config.thisHardware : Config := ⟨0x100000#32, .reject⟩

end Sys2Proof
end

