-- ==== Sys2Proof/Machine/State.lean ====
section
/-! DEFINITION. The state of the engine (R10), its two memories, the host's side of the interface,
the reasons a step can stop, and the state right after reset (R31). -/

namespace Sys2Proof.Machine

/-- A memory: (address, byte) pairs, addresses strictly rising, holding exactly the bytes that
something has written; an unlisted address has no value (log 2). -/
abbrev Memory := List Host.Cell

/-- The eight values of the state-machine register (R21). -/
inductive Fsm where
  | idle
  | header
  | awaitMaskBit
  | dispatch
  | literal
  | backref
  | done
  | error
  deriving DecidableEq, Repr

/-- The five kinds of error (R140). They end a call, not the machine (R148). -/
inductive ErrorKind where
  | malformedHeader
  | truncatedInput
  | invalidBackReference
  | outputSizeMismatch
  | allocationFailure
  deriving DecidableEq, Repr

/-- What the host does next (R179); each is one step of the machine (log 3). -/
inductive HostMove where
  /-- Load one byte of IN. -/
  | writeIn (a : Word) (b : Byte)
  /-- Write INPUT_LEN. -/
  | writeInputLen (len : Word)
  /-- The command START (R122). -/
  | start
  /-- Assert the reset input (R170). -/
  | reset
  /-- Read the three status flags (R20). -/
  | poll
  | readInputLen
  | readErrCode
  | readResultLen
  /-- Read one byte of OUT (R57). -/
  | readOut (a : Word)
  /-- Do nothing: the engine takes its step. -/
  | wait
  deriving DecidableEq, Repr

/-- What a read of the host's returned. -/
inductive HostReading where
  | status (busy done error : Bool)
  | inputLen (v : Word)
  | errCode (c : BitVec 3)
  | resultLen (v : Word)
  | outByte (b : Byte)
  deriving DecidableEq, Repr

/-- The host as the machine sees it: what it will do, oldest first, and what it read last. The
model's own fields (DESIGN CHOICE, log 3). -/
structure HostPort where
  moves : List HostMove
  reading : Option HostReading
  deriving DecidableEq, Repr

/-- The whole state (R10), the instance's configuration (log 1) and the host's side (log 3). -/
structure State where
  config : Config
  inMem : Memory
  inputLen : Word
  outMem : Memory
  decodedSize : Word
  linkTableOffset : Word
  byteChunkOffset : Word
  maskCursor : Word
  maskWord : Word
  maskBitsLeft : BitVec 6
  linkCursor : Word
  byteChunkCursor : Word
  outputCursor : Word
  ctrlBit : Bool
  fsm : Fsm
  errCode : Option ErrorKind
  resultLen : Word
  host : HostPort
  deriving DecidableEq, Repr

/-- Why the machine stops. None is one of the spec's five errors, which are next states. -/
inductive Fault where
  /-- The engine reads a byte of IN that nothing has written: raised by the readers of IN. Safe:
  R31 and U6 tell a model to fault there (log 2). -/
  | unwrittenIn (a : Nat)
  /-- A read of a byte of OUT that nothing has written: raised by the copy of a back-reference and
  by the host's read of OUT. Safe; no state that meets the invariant R18 reaches it (log 2). -/
  | unwrittenOut (a : Nat)
  /-- A write of OUT at or above OUT_CAPACITY, an address that does not exist (R29): raised by
  `LIT`, `REFS` and `REFX`. Safe; no state that meets the invariant R18 reaches it (log 5). -/
  | outsideOut (a : Nat)
  deriving DecidableEq, Repr

/-- What the model gives no meaning. -/
inductive Refusal where
  /-- An instruction without a meaning; no arm of exec answers it. Safe. -/
  | notModelled (mnemonic : String)
  /-- The host writes IN or INPUT_LEN while busy: raised by the host's moves. Safe: U7 tells a
  model to refuse it (log 6). -/
  | hostWriteWhileBusy
  /-- The host reads OUT outside DONE: raised by the host's moves. Safe: U3 tells a model to
  refuse it (log 6). -/
  | hostReadOutNotDone
  /-- The host reads OUT at or above resultLen: raised by the host's moves. Safe: U4 tells a model
  to refuse it (log 6). -/
  | hostReadOutAboveResult
  deriving DecidableEq, Repr

/-- The machine right after reset (R31, R170): fsm IDLE, errCode None, resultLen and INPUT_LEN 0,
both memories without a value anywhere. Every register R31 leaves unspecified is 0 (DESIGN CHOICE,
log 4, unsafe). -/
def State.reset : State where
  config := Config.thisHardware
  inMem := []
  inputLen := 0
  outMem := []
  decodedSize := 0
  linkTableOffset := 0
  byteChunkOffset := 0
  maskCursor := 0
  maskWord := 0
  maskBitsLeft := 0
  linkCursor := 0
  byteChunkCursor := 0
  outputCursor := 0
  ctrlBit := false
  fsm := .idle
  errCode := none
  resultLen := 0
  host := ⟨[], none⟩

end Sys2Proof.Machine
end

