-- ==== Sys2Proof/Machine/Ops.lean ====
section
/-! DEFINITION. The named operations over memory and registers: reads and writes of IN and OUT, the
result of a step's part, the register updates the rules make, the error entry (R148), and START
(R122), the only way out of ERROR but reset (R150). -/

namespace Sys2Proof.Machine

/-! ## Memory -/

/-- The byte at an address, if something has written one (log 2). -/
def Memory.read : Memory → Nat → Option Byte
  | [], _ => none
  | (a, b) :: rest, x => if a = x then some b else Memory.read rest x

/-- Write one byte, keeping the addresses strictly rising. -/
def Memory.write : Memory → Nat → Byte → Memory
  | [], x, v => [(x, v)]
  | (a, b) :: rest, x, v =>
    if x < a then (x, v) :: (a, b) :: rest
    else if x = a then (x, v) :: rest
    else (a, b) :: Memory.write rest x v

/-- Write bytes at consecutive addresses. -/
def Memory.writeList (m : Memory) (x : Nat) : List Byte → Memory
  | [] => m
  | v :: vs => Memory.writeList (m.write x v) (x + 1) vs

/-- Every listed address is above `lo`, and the addresses strictly rise. -/
def Memory.risingFrom : Nat → Memory → Bool
  | _, [] => true
  | lo, (a, _) :: rest => decide (lo < a) && Memory.risingFrom a rest

/-- The canonical form: addresses strictly rise. An unlisted address has no value, so no entry can
equal what an unlisted address reads as. -/
def Memory.wf : Memory → Bool
  | [] => true
  | (a, _) :: rest => Memory.risingFrom a rest

/-- `MemRead(IN, a, 1)` (R6, R41); a byte nothing has written is a fault (R31, U6). -/
def readIn (m : Memory) (a : Nat) : Except Fault Byte :=
  match m.read a with
  | some b => .ok b
  | none => .error (.unwrittenIn a)

/-- `MemRead(IN, a, 2)`: the big-endian composition of two byte reads (R41). -/
def readIn16 (m : Memory) (a : Nat) : Except Fault (BitVec 16) :=
  match readIn m a with
  | .error f => .error f
  | .ok b0 =>
    match readIn m (a + 1) with
    | .error f => .error f
    | .ok b1 => .ok (be16 b0 b1)

/-- `MemRead(IN, a, 4)`: the big-endian composition of four byte reads (R41). -/
def readIn32 (m : Memory) (a : Nat) : Except Fault Word :=
  match readIn16 m a with
  | .error f => .error f
  | .ok hi =>
    match readIn16 m (a + 2) with
    | .error f => .error f
    | .ok lo => .ok (hi ++ lo)

/-- `n` bytes of IN at consecutive addresses, as the fetch hands them to the decoder. -/
def readInBytes (m : Memory) (a : Nat) : Nat → Except Fault (List Byte)
  | 0 => .ok []
  | n + 1 =>
    match readIn m a with
    | .error f => .error f
    | .ok b =>
      match readInBytes m (a + 1) n with
      | .error f => .error f
      | .ok bs => .ok (b :: bs)

/-- `MemRead(OUT, a, 1)` (R6, R48). -/
def readOut (m : Memory) (a : Nat) : Except Fault Byte :=
  match m.read a with
  | some b => .ok b
  | none => .error (.unwrittenOut a)

/-- `n` bytes of OUT at consecutive addresses. -/
def readOutBytes (m : Memory) (a : Nat) : Nat → Except Fault (List Byte)
  | 0 => .ok []
  | n + 1 =>
    match readOut m a with
    | .error f => .error f
    | .ok b =>
      match readOutBytes m (a + 1) n with
      | .error f => .error f
      | .ok bs => .ok (b :: bs)

/-- `MemWrite(OUT, a, 1, v)` (R6): addresses at or above OUT_CAPACITY do not exist (R29, log 5). -/
def writeOut (capacity : Word) (m : Memory) (a : Nat) (v : Byte) : Except Fault Memory :=
  if a < capacity.toNat then .ok (m.write a v) else .error (.outsideOut a)

/-! ## What part of a step answers -/

/-- A part of a step: it goes on with a value, raises one of the five errors, or stops at a fault
of the model. The state of `raised` holds the writes made before the raise (R148). -/
inductive Res (α : Type) where
  | ok (a : α) (s : State)
  | raised (e : ErrorKind) (s : State)
  | fault (f : Fault)

/-- Go on with the next part, unless an error was raised or the model faulted (R6, `raise`). -/
def Res.bind {α β : Type} (r : Res α) (next : α → State → Res β) : Res β :=
  match r with
  | .ok a s => next a s
  | .raised e s => .raised e s
  | .fault f => .fault f

/-! ## The error entry and START -/

/-- The error entry, shared by all five errors (R148): the code is recorded, the result length
cleared, and control goes to ERROR. Nothing else is saved (R146) and nothing written before the
raise is undone. -/
def State.raise (s : State) (e : ErrorKind) : State :=
  { s with errCode := some e, resultLen := 0, fsm := .error }

/-- START accepted (R122): the only way out of DONE and ERROR but reset (R130, R150). -/
def State.acceptStart (s : State) : State :=
  { s with errCode := none, resultLen := 0, fsm := .header }

/-- Reset, from any state (R170): everything is as State.reset says, but for the instance's
configuration and the host, which are not the block's. -/
def State.hardwareReset (s : State) : State :=
  { State.reset with config := s.config, host := s.host }

/-- The end of a step (R120): the next state it reached, or the error entry. -/
def Res.finish (r : Res Unit) : Host.Outcome State Fault Refusal :=
  match r with
  | .ok _ s => .next s
  | .raised e s => .next (s.raise e)
  | .fault f => .fault f

/-! ## Register updates -/

/-- The state-machine register (R21). -/
def State.goto (s : State) (f : Fsm) : State := { s with fsm := f }

/-- Entry to DONE (R25, R129). -/
def State.enterDone (s : State) : State := { s with resultLen := s.decodedSize, fsm := .done }

/-- The three header registers (R22, R80). -/
def State.setHeader (s : State) (size link chunk : Word) : State :=
  { s with decodedSize := size, linkTableOffset := link, byteChunkOffset := chunk }

/-- The call-start values of the working registers (R32, R80). -/
def State.initCall (s : State) : State :=
  { s with
    maskCursor := BitVec.ofNat 32 headerSize
    maskWord := 0
    maskBitsLeft := 0
    linkCursor := s.linkTableOffset
    byteChunkCursor := s.byteChunkOffset
    outputCursor := 0
    ctrlBit := false }

/-- A refill: the word at `maskCursor`, 32 unread bits, the cursor past it (R91). -/
def State.loadMask (s : State) (w : Word) : State :=
  { s with
    maskWord := w
    maskCursor := s.maskCursor + BitVec.ofNat 32 maskWordBytes
    maskBitsLeft := BitVec.ofNat 6 maskWordBits }

/-- One control bit taken: a 32-bit left shift, one bit fewer (R91). -/
def State.shiftMask (s : State) : State :=
  { s with maskWord := s.maskWord <<< 1, maskBitsLeft := s.maskBitsLeft - 1 }

/-- The latch between AWAIT_MASK_BIT and DISPATCH (R30, R124). -/
def State.latch (s : State) (c : Bool) : State := { s with ctrlBit := c }

/-- The link cursor past one link code (R93). -/
def State.advanceLink (s : State) : State :=
  { s with linkCursor := s.linkCursor + BitVec.ofNat 32 linkCodeBytes }

/-- The byte-chunk cursor past one byte (R92). -/
def State.advanceChunk (s : State) : State :=
  { s with byteChunkCursor := s.byteChunkCursor + 1 }

/-- OUT after `n` bytes were appended, and the output cursor past them (R47, R109). -/
def State.appended (s : State) (out : Memory) (n : Nat) : State :=
  { s with outMem := out, outputCursor := s.outputCursor + BitVec.ofNat 32 n }

/-- One byte of IN, loaded by the host (R10). -/
def State.loadIn (s : State) (a : Word) (b : Byte) : State :=
  { s with inMem := s.inMem.write a.toNat b }

/-- INPUT_LEN, written by the host (R23). -/
def State.setInputLen (s : State) (len : Word) : State := { s with inputLen := len }

/-- What the host has still to do (log 3). -/
def State.setMoves (s : State) (ms : List HostMove) : State :=
  { s with host := ⟨ms, s.host.reading⟩ }

/-- What the host has just read (log 3). -/
def State.answer (s : State) (r : HostReading) : State :=
  { s with host := ⟨s.host.moves, some r⟩ }

/-- The terminal test, made wherever `outputCursor` has just been written (R83, R128). -/
def State.terminalTest (s : State) : State :=
  if s.outputCursor.toNat ≥ s.decodedSize.toNat then s.enterDone else s.goto .awaitMaskBit

end Sys2Proof.Machine
end

