-- ==== Sys2Proof/Machine/Operands.lean ====
section
/-! DEFINITION. The operands of the tokens (R65, R111) and the reads the engine makes through its
cursors (R90 to R93). All arithmetic is exact (R5, R111). -/

namespace Sys2Proof.Machine

/-- The run length of the short form (R65, R104). -/
def shortRun (lengthField : BitVec 4) : Nat := lengthField.toNat + shortRunBias

/-- The run length of the extended form (R65, R104). -/
def extendedRun (e : Byte) : Nat := e.toNat + extendedRunBias

/-- `outputCursor - distance - 1`, signed and exact (R65, R105). -/
def State.sourceStart (s : State) (distance : BitVec 12) : Int :=
  (s.outputCursor.toNat : Int) - distance.toNat - 1

/-- Whether a run of `n` bytes would pass `decodedSize` (R106). -/
def State.overshoots (s : State) (n : Nat) : Bool :=
  decide (s.outputCursor.toNat + n > s.decodedSize.toNat)

/-- How many bytes of a run of `n` are copied, by the overshoot policy; none when the run is
rejected (R100, R106). The difference is exact wherever R18 holds (log 5). -/
def State.copyCount (s : State) (n : Nat) : Option Nat :=
  if s.overshoots n then
    match s.config.overshootPolicy with
    | .reject => none
    | .truncate => some (s.decodedSize.toNat - s.outputCursor.toNat)
  else some n

/-- The bounds check of a read of `n` bytes at a cursor, over the integers (R45). -/
def State.inBounds (s : State) (cursor : Word) (n : Nat) : Bool :=
  decide (cursor.toNat + n ≤ s.inputLen.toNat)

/-- The refill of `nextBit`, made only when no unread bit is left (R91, R174). -/
def State.refill (s : State) : Res Unit :=
  if s.maskBitsLeft = 0 then
    if s.inBounds s.maskCursor maskWordBytes then
      match readIn32 s.inMem s.maskCursor.toNat with
      | .ok w => .ok () (s.loadMask w)
      | .error f => .fault f
    else .raised .truncatedInput s
  else .ok () s

/-- `nextBit()`: the next control bit (R91). -/
def State.nextBit (s : State) : Res Bool :=
  s.refill.bind fun _ s => .ok s.maskWord.msb s.shiftMask

/-- `nextByte()`: the next byte of the byte-chunk stream (R92). -/
def State.nextByte (s : State) : Res Byte :=
  if s.inBounds s.byteChunkCursor 1 then
    match readIn s.inMem s.byteChunkCursor.toNat with
    | .ok v => .ok v s.advanceChunk
    | .error f => .fault f
  else .raised .truncatedInput s

/-- `nextCode()`: the next link code (R93). -/
def State.nextCode (s : State) : Res (BitVec 16) :=
  if s.inBounds s.linkCursor linkCodeBytes then
    match readIn16 s.inMem s.linkCursor.toNat with
    | .ok v => .ok v s.advanceLink
    | .error f => .fault f
  else .raised .truncatedInput s

/-- What `nextByte` does to the registers, for a token whose byte the fetch has read (R92). -/
def State.takeByte (s : State) : Res Unit :=
  if s.inBounds s.byteChunkCursor 1 then .ok () s.advanceChunk else .raised .truncatedInput s

/-- What `nextCode` does to the registers, for a token whose link code the fetch has read (R93). -/
def State.takeCode (s : State) : Res Unit :=
  if s.inBounds s.linkCursor linkCodeBytes then .ok () s.advanceLink
  else .raised .truncatedInput s

end Sys2Proof.Machine
end

