-- ==== Sys2Proof/Machine/Header.lean ====
section
/-! DEFINITION. The header parser: `HDR` (R80 to R84). -/

namespace Sys2Proof.Machine

/-- The step HEADER after its three fields are read (R80): the length test (R81), the header
registers, the capacity test (R82), the call-start values (R32), the terminal test (R83). -/
def State.parseHeader (s : State) (size link chunk : Word) : Res Unit :=
  if s.inputLen.toNat < headerSize then .raised .malformedHeader s
  else if size.toNat > s.config.outCapacity.toNat then
    .raised .allocationFailure (s.setHeader size link chunk)
  else .ok () (s.setHeader size link chunk).initCall.terminalTest

/-- `HDR` (R80). -/
def execHdr (size link chunk : Word) (s : State) : Host.Outcome State Fault Refusal :=
  (s.parseHeader size link chunk).finish

end Sys2Proof.Machine
end

