-- ==== Sys2Proof/Machine/Literal.lean ====
section
/-! DEFINITION. The literal: `LIT` (R126). -/

namespace Sys2Proof.Machine

/-- `MemWrite(OUT, outputCursor, 1, b)` and the output cursor past it (R47, R126). -/
def State.appendByte (s : State) (b : Byte) : Res Unit :=
  match writeOut s.config.outCapacity s.outMem s.outputCursor.toNat b with
  | .ok out => .ok () (s.appended out 1)
  | .error f => .fault f

/-- `LIT b` (R126): one byte of the byte-chunk stream consumed and appended, then the terminal
test. `b` is the byte the fetch read at the byte-chunk cursor. -/
def execLit (b : Byte) (s : State) : Host.Outcome State Fault Refusal :=
  (s.takeByte.bind fun _ s => (s.appendByte b).bind fun _ s => .ok () s.terminalTest).finish

end Sys2Proof.Machine
end

