-- ==== Sys2Proof/Machine/Resolver.lean ====
section
/-! DEFINITION. The back-reference resolver: `REFS`, `REFX` and the operation `resolve` they
share (R100 to R111). -/

namespace Sys2Proof.Machine

/-- The copy loop (R100, R107): `n` bytes from `src` to `dst`, one at a time in increasing order,
each read after every earlier one was written. -/
def copyRun (capacity : Word) (src dst : Nat) : Nat → Memory → Except Fault Memory
  | 0, out => .ok out
  | n + 1, out =>
    match readOut out src with
    | .error f => .error f
    | .ok v =>
      match writeOut capacity out dst v with
      | .error f => .error f
      | .ok out' => copyRun capacity (src + 1) (dst + 1) n out'

/-- Steps 4 and 5 of `resolve`, once the distance and the run length are known: the distance test
(R105), the overshoot test (R106), the copy (R107), the output cursor past the run (R109). -/
def State.replay (s : State) (distance : BitVec 12) (runLength : Nat) : Res Unit :=
  if s.sourceStart distance < 0 then .raised .invalidBackReference s
  else
    match s.copyCount runLength with
    | none => .raised .outputSizeMismatch s
    | some n =>
      match copyRun s.config.outCapacity (s.sourceStart distance).toNat s.outputCursor.toNat n
          s.outMem with
      | .ok out => .ok () (s.appended out n)
      | .error f => .fault f

/-- `resolve()`, transcribed from its pseudocode (R100). The machine runs a back-reference through
fetch, decode and `REFS` or `REFX`; that this is `resolve` is a statement. -/
def State.resolve (s : State) : Res Unit :=
  s.nextCode.bind fun code s =>
    if linkLengthField code = 0 then
      s.nextByte.bind fun e s => s.replay (linkDistance code) (extendedRun e)
    else s.replay (linkDistance code) (shortRun (linkLengthField code))

/-- `REFS` (R101): the link code consumed, the run appended, the terminal test. -/
def execRefs (lengthField : BitVec 4) (distance : BitVec 12) (s : State) :
    Host.Outcome State Fault Refusal :=
  (s.takeCode.bind fun _ s =>
    (s.replay distance (shortRun lengthField)).bind fun _ s => .ok () s.terminalTest).finish

/-- `REFX` (R102): the link code and the extension byte consumed, the run appended, the terminal
test. `e` is the byte the fetch read at the byte-chunk cursor. -/
def execRefx (distance : BitVec 12) (e : Byte) (s : State) : Host.Outcome State Fault Refusal :=
  (s.takeCode.bind fun _ s => s.takeByte.bind fun _ s =>
    (s.replay distance (extendedRun e)).bind fun _ s => .ok () s.terminalTest).finish

end Sys2Proof.Machine
end

