-- ==== Sys2Proof/Machine/Dispatch.lean ====
section
/-! DEFINITION. One arm per instruction (R67). -/

namespace Sys2Proof.Machine

def exec (i : Instr) (s : State) : Host.Outcome State Fault Refusal :=
  match i with
  | .hdr size link chunk => Sys2Proof.Machine.execHdr size link chunk s
  | .lit b => Sys2Proof.Machine.execLit b s
  | .refs lengthField distance => Sys2Proof.Machine.execRefs lengthField distance s
  | .refx distance e => Sys2Proof.Machine.execRefx distance e s

end Sys2Proof.Machine
end

