-- ==== Sys2Proof/Machine/Fetch.lean ====
section
/-! DEFINITION. Fetching an instruction: the engine has no program counter (R19); the fetch of a
token is the reads through its cursors (R43), and the decoder makes an instruction of them; `exec`
then advances the cursors (DESIGN CHOICE, log 10, safe). -/

namespace Sys2Proof.Machine

/-- The error of a missing piece (R141, R142). -/
def Reject.errorKind : Reject → ErrorKind
  | .headerTooShort => .malformedHeader
  | .literalByteMissing => .truncatedInput
  | .linkCodeTooShort => .truncatedInput
  | .extensionByteMissing => .truncatedInput

/-- What the decoder read, at state `s`. -/
def State.decoded (s : State) (d : Except Reject Instr) : Res Instr :=
  match d with
  | .ok i => .ok i s
  | .error r => .raised (Reject.errorKind r) s

/-- The `n` bytes at a cursor, after the bounds check (R45); no register changes. -/
def State.piece (s : State) (cursor : Word) (n : Nat) : Res (List Byte) :=
  if s.inBounds cursor n then
    match readInBytes s.inMem cursor.toNat n with
    | .ok bs => .ok bs s
    | .error f => .fault f
  else .raised .truncatedInput s

/-- The header record: the length test, then the twelve bytes at 4 .. 15; the tag is never read
(R44, R80, R81). -/
def State.fetchHeader (s : State) : Res Instr :=
  if s.inputLen.toNat < headerSize then .raised .malformedHeader s
  else
    match readInBytes s.inMem headerFieldsOffset headerFieldsSize with
    | .ok bs => s.decoded (decodeHeaderFields bs)
    | .error f => .fault f

/-- A literal's byte (R126). -/
def State.fetchLiteral (s : State) : Res Instr :=
  (s.piece s.byteChunkCursor 1).bind fun chunk s => s.decoded (decode (.token true [] chunk))

/-- A back-reference's link code and, only when its length field is 0, its extension byte; when
that byte is missing the link cursor has already moved (R100, R149). -/
def State.fetchBackref (s : State) : Res Instr :=
  (s.piece s.linkCursor linkCodeBytes).bind fun link s =>
    if needsExtension link then
      (s.advanceLink.piece s.byteChunkCursor 1).bind fun chunk _ =>
        s.decoded (decode (.token false link chunk))
    else s.decoded (decode (.token false link []))

/-- The instruction the state-machine register calls for; IDLE, AWAIT_MASK_BIT, DISPATCH, DONE and
ERROR fetch none (R120). -/
def State.fetch (s : State) : Option (Res Instr) :=
  match s.fsm with
  | .header => some s.fetchHeader
  | .literal => some s.fetchLiteral
  | .backref => some s.fetchBackref
  | .idle | .awaitMaskBit | .dispatch | .done | .error => none

end Sys2Proof.Machine
end

