-- ==== Sys2Proof/Machine/Flags.lean ====
section
/-! DEFINITION. The status flags, pure functions of the state-machine register (R20), and the codes
of the errors (R140). The tokens have no condition codes. -/

namespace Sys2Proof.Machine

/-- `busy`: a call is in progress (R20). -/
def State.busy (s : State) : Bool :=
  match s.fsm with
  | .header | .awaitMaskBit | .dispatch | .literal | .backref => true
  | .idle | .done | .error => false

/-- `done`: the last call succeeded (R20). -/
def State.done (s : State) : Bool := decide (s.fsm = .done)

/-- `error`: the last call failed (R20). -/
def State.error (s : State) : Bool := decide (s.fsm = .error)

/-- The number of an error (R140). -/
def ErrorKind.code : ErrorKind → BitVec 3
  | .malformedHeader => 1
  | .truncatedInput => 2
  | .invalidBackReference => 3
  | .outputSizeMismatch => 4
  | .allocationFailure => 5

/-- The three bits of `errCode` (R24, R140): 0 is `None`; 6 and 7 never occur. -/
def State.errCodeBits (s : State) : BitVec 3 :=
  match s.errCode with
  | none => 0
  | some e => e.code

end Sys2Proof.Machine
end

