-- ==== Sys2Proof/Machine/Engine.lean ====
section
/-! DEFINITION. The engine's step, one execution of the rule of its state (R6, R120, R121), and the
host's moves (R179). -/

namespace Sys2Proof.Machine

/-- Step AWAIT_MASK_BIT (R124). -/
def State.awaitStep (s : State) : Res Unit :=
  s.nextBit.bind fun c s => .ok () ((s.latch c).goto .dispatch)

/-- Step DISPATCH (R125): 1 selects a literal, 0 a back-reference. -/
def State.dispatchStep (s : State) : State :=
  match s.ctrlBit with
  | true => s.goto .literal
  | false => s.goto .backref

/-- Run what was fetched: the instruction, or the error entry of a missing piece. -/
def State.runFetched (s : State) (r : Res Instr) : Host.Outcome State Fault Refusal :=
  match r with
  | .ok i _ => exec i s
  | .raised e t => .next (t.raise e)
  | .fault f => .fault f

/-- The engine's step (R120, R121). In IDLE, DONE and ERROR the engine has no step: it waits, and
waiting loses no state (R157). -/
def engineStep (s : State) : Host.Outcome State Fault Refusal :=
  match s.fsm with
  | .header => s.runFetched s.fetchHeader
  | .awaitMaskBit => s.awaitStep.finish
  | .dispatch => .next s.dispatchStep
  | .literal => s.runFetched s.fetchLiteral
  | .backref => s.runFetched s.fetchBackref
  | .idle | .done | .error => .next s

/-- A move of the host that needs `busy = 0`: loading IN or writing INPUT_LEN (R57, U7, log 6). -/
def State.whenNotBusy (s t : State) : Host.Outcome State Fault Refusal :=
  if s.busy then .refused .hostWriteWhileBusy else .next t

/-- The host reads one byte of OUT: only in DONE, only below resultLen (R57, U3, U4, log 6). -/
def State.hostReadOut (s : State) (a : Word) : Host.Outcome State Fault Refusal :=
  if s.done then
    if a.toNat < s.resultLen.toNat then
      match readOut s.outMem a.toNat with
      | .ok b => .next (s.answer (.outByte b))
      | .error f => .fault f
    else .refused .hostReadOutAboveResult
  else .refused .hostReadOutNotDone

/-- One move of the host (R179). START while busy has no effect (R122). -/
def hostStep (m : HostMove) (s : State) : Host.Outcome State Fault Refusal :=
  match m with
  | .writeIn a b => s.whenNotBusy (s.loadIn a b)
  | .writeInputLen len => s.whenNotBusy (s.setInputLen len)
  | .start => .next (if s.busy then s else s.acceptStart)
  | .reset => .next s.hardwareReset
  | .poll => .next (s.answer (.status s.busy s.done s.error))
  | .readInputLen => .next (s.answer (.inputLen s.inputLen))
  | .readErrCode => .next (s.answer (.errCode s.errCodeBits))
  | .readResultLen => .next (s.answer (.resultLen s.resultLen))
  | .readOut a => s.hostReadOut a
  | .wait => engineStep s

/-- The result of a call (R25, R129, R130): the decoded bytes in DONE, the error in ERROR, nothing
while none has ended. -/
def State.callResult (s : State) : Option (Except ErrorKind (List Byte)) :=
  match s.fsm with
  | .done =>
    match readOutBytes s.outMem 0 s.resultLen.toNat with
    | .ok bs => some (.ok bs)
    | .error _ => none
  | .error => s.errCode.map .error
  | .idle | .header | .awaitMaskBit | .dispatch | .literal | .backref => none

end Sys2Proof.Machine
end

