-- ==== Sys2Proof/Machine/Step.lean ====
section
/-! DEFINITION. One step of the machine: the host's next move, or the engine's step when the host
has none (R120, log 3); and a word of the opcode table placed where the next step runs it. -/

namespace Sys2Proof.Machine

/-- One step. -/
def step (s : State) : Host.Outcome State Fault Refusal :=
  match s.host.moves with
  | [] => engineStep s
  | m :: ms => hostStep m (s.setMoves ms)

/-- The state with INPUT_LEN at least `n`. -/
def State.withInput (s : State) (n : Nat) : State :=
  if s.inputLen.toNat < n then { s with inputLen := BitVec.ofNat 32 n } else s

/-- A cursor with room for `n` bytes below the largest INPUT_LEN, else 0. -/
def cursorWithRoom (cursor : Word) (n : Nat) : Word :=
  if cursor.toNat + n < 2 ^ 32 then cursor else 0

/-- A byte-chunk cursor with room for one byte that is no byte of the link code at `link`. -/
def chunkBeside (chunk link : Word) : Word :=
  if chunk.toNat = link.toNat ∨ chunk.toNat = link.toNat + 1 ∨ chunk.toNat + 1 ≥ 2 ^ 32 then
    cursorWithRoom (link + 2) 1
  else chunk

/-- Place a header record: the container's first sixteen bytes, state HEADER. -/
def State.placeHeader (s : State) (bytes : List Byte) : State :=
  { s.withInput headerSize with inMem := s.inMem.writeList 0 bytes, fsm := .header }

/-- Place a literal's byte at the byte-chunk cursor, state LITERAL. -/
def State.placeLiteral (s : State) (chunk : List Byte) : State :=
  let at' := cursorWithRoom s.byteChunkCursor 1
  { s.withInput (at'.toNat + 1) with
    inMem := s.inMem.writeList at'.toNat chunk
    byteChunkCursor := at'
    fsm := .literal }

/-- Place a link code at the link cursor and, if it needs one, an extension byte at the byte-chunk
cursor, state BACKREF. -/
def State.placeBackref (s : State) (link chunk : List Byte) : State :=
  let linkAt := cursorWithRoom s.linkCursor 2
  let t : State :=
    { s.withInput (linkAt.toNat + 2) with
      inMem := s.inMem.writeList linkAt.toNat link
      linkCursor := linkAt
      fsm := .backref }
  if needsExtension link then
    let chunkAt := chunkBeside t.byteChunkCursor linkAt
    { t.withInput (chunkAt.toNat + 1) with
      inMem := t.inMem.writeList chunkAt.toNat chunk
      byteChunkCursor := chunkAt }
  else t

/-- The state whose next step fetches and runs the instruction of an opcode-table word (log 8): its
pieces in IN at the cursors, INPUT_LEN past them, the state-machine register that fetches it, and
no pending host move. A word that is no instruction changes nothing. -/
def State.withFetchWord (s : State) (nbits w : Nat) : State :=
  match tableWordPieces nbits w with
  | some (.header bytes) => (s.setMoves []).placeHeader bytes
  | some (.token true _ chunk) => (s.setMoves []).placeLiteral chunk
  | some (.token false link chunk) => (s.setMoves []).placeBackref link chunk
  | none => s

end Sys2Proof.Machine
end

