-- ==== Sys2Proof/Machine/BigStep.lean ====
section
/-! DEFINITION. The function a whole call computes, on byte lists and exact numbers (R131): the
source's `decode(input) -> Result`. No part of `step` uses it; that the engine computes it is a
statement. -/

namespace Sys2Proof.Machine

/-- Where a call has got to: the unread control bits of the last mask word, the three input cursors
and the bytes produced. -/
structure Scan where
  maskCursor : Nat
  maskBits : List Bool
  link : Nat
  chunk : Nat
  out : List Byte
  deriving DecidableEq, Repr

/-- The byte of the input at an offset that a bounds check has passed. -/
def byteAt (input : List Byte) (a : Nat) : Byte := input.getD a 0

/-- The big-endian word of the input at an offset that a bounds check has passed (R41). -/
def wordAt (input : List Byte) (a : Nat) : Word :=
  be32 (byteAt input a) (byteAt input (a + 1)) (byteAt input (a + 2)) (byteAt input (a + 3))

/-- The control bits of a mask word in stream order, most significant first (R42, R62). -/
def controlBits (w : Word) : List Bool := (List.range maskWordBits).map fun j => w.getMsbD j

/-- The next control bit (R91). -/
def Scan.bit (sc : Scan) (input : List Byte) : Except ErrorKind (Bool × Scan) :=
  match sc.maskBits with
  | c :: rest => .ok (c, { sc with maskBits := rest })
  | [] =>
    if sc.maskCursor + maskWordBytes ≤ input.length then
      match controlBits (wordAt input sc.maskCursor) with
      | c :: rest =>
        .ok (c, { sc with maskCursor := sc.maskCursor + maskWordBytes, maskBits := rest })
      | [] => .error .truncatedInput
    else .error .truncatedInput

/-- The next byte of the byte-chunk stream (R92). -/
def Scan.byte (sc : Scan) (input : List Byte) : Except ErrorKind (Byte × Scan) :=
  if sc.chunk + 1 ≤ input.length then .ok (byteAt input sc.chunk, { sc with chunk := sc.chunk + 1 })
  else .error .truncatedInput

/-- The next link code (R93). -/
def Scan.code (sc : Scan) (input : List Byte) : Except ErrorKind (BitVec 16 × Scan) :=
  if sc.link + linkCodeBytes ≤ input.length then
    .ok (be16 (byteAt input sc.link) (byteAt input (sc.link + 1)),
      { sc with link := sc.link + linkCodeBytes })
  else .error .truncatedInput

/-- `n` bytes appended, each the byte `distance + 1` places before it (R107). -/
def replayBytes (distance : Nat) : Nat → List Byte → List Byte
  | 0, out => out
  | n + 1, out => replayBytes distance n (out ++ [byteAt out (out.length - distance - 1)])

/-- A run appended, after the distance test and the overshoot test (R105, R106). -/
def Scan.run (sc : Scan) (policy : OvershootPolicy) (size distance n : Nat) :
    Except ErrorKind Scan :=
  if distance ≥ sc.out.length then .error .invalidBackReference
  else if sc.out.length + n ≤ size then .ok { sc with out := replayBytes distance n sc.out }
  else
    match policy with
    | .reject => .error .outputSizeMismatch
    | .truncate => .ok { sc with out := replayBytes distance (size - sc.out.length) sc.out }

/-- One token (R131): its control bit, then a literal or a back-reference. -/
def Scan.token (sc : Scan) (policy : OvershootPolicy) (size : Nat) (input : List Byte) :
    Except ErrorKind Scan := do
  let (c, sc) ← sc.bit input
  if c then
    let (b, sc) ← sc.byte input
    .ok { sc with out := sc.out ++ [b] }
  else
    let (code, sc) ← sc.code input
    if linkLengthField code = 0 then
      let (e, sc) ← sc.byte input
      sc.run policy size (linkDistance code).toNat (extendedRun e)
    else sc.run policy size (linkDistance code).toNat (shortRun (linkLengthField code))

/-- The loop (R131); `fuel` bounds the number of tokens, and `size` is enough, since every token
produces at least one byte (R133). -/
def decodeTokens (policy : OvershootPolicy) (size : Nat) (input : List Byte) :
    Nat → Scan → Except ErrorKind (List Byte)
  | 0, sc => .ok sc.out
  | fuel + 1, sc =>
    if size ≤ sc.out.length then .ok sc.out
    else
      match sc.token policy size input with
      | .ok sc' => decodeTokens policy size input fuel sc'
      | .error e => .error e

/-- The whole call (R131): the header with its two tests (R81, R82), then the loop. -/
def decodeCall (config : Config) (input : List Byte) : Except ErrorKind (List Byte) :=
  if input.length < headerSize then .error .malformedHeader
  else
    let size := (wordAt input 4).toNat
    if size > config.outCapacity.toNat then .error .allocationFailure
    else
      decodeTokens config.overshootPolicy size input size
        ⟨headerSize, [], (wordAt input 8).toNat, (wordAt input 12).toNat, []⟩

end Sys2Proof.Machine
end

