-- ==== Sys2Proof/Safety.lean ====
section
/-! DEFINITION. What counts as a good state and a good run, in the terms the statements use: the
invariants R18 derives, the input a call reads, the tokens a call has consumed (R95). -/

namespace Sys2Proof.Machine

/-- The states of the loop: those of a call after its header (R18, R121). -/
def Fsm.inLoop : Fsm → Bool
  | .awaitMaskBit | .dispatch | .literal | .backref => true
  | .idle | .header | .done | .error => false

/-- Every byte of OUT below `n` has been written. -/
def State.outWrittenTo (s : State) (n : Nat) : Prop := ∀ a < n, s.outMem.read a ≠ none

/-- Every byte of IN below INPUT_LEN has been written: the host's duty (R172). -/
def State.inputLoaded (s : State) : Prop := ∀ a < s.inputLen.toNat, s.inMem.read a ≠ none

/-- IN below INPUT_LEN is the byte list `input`. -/
def State.holdsInput (s : State) (input : List Byte) : Prop :=
  input.length = s.inputLen.toNat ∧ ∀ a < input.length, s.inMem.read a = input[a]?

/-- R18 for one input cursor: at its start value, or advanced and within INPUT_LEN. -/
def cursorOk (cursor start len : Word) : Prop :=
  cursor = start ∨ start.toNat < cursor.toNat ∧ cursor.toNat ≤ len.toNat

/-- R18 in the loop: the bounds of the registers, and what R11 and R12 say of the mask. -/
structure State.LoopInv (s : State) : Prop where
  maskBits : s.maskBitsLeft.toNat ≤ 32
  maskLow : s.maskWord.toNat % 2 ^ (32 - s.maskBitsLeft.toNat) = 0
  maskFrom : 16 ≤ s.maskCursor.toNat
  maskStep : s.maskCursor.toNat % 4 = 0
  maskTo : s.maskCursor.toNat ≤ s.inputLen.toNat
  link : cursorOk s.linkCursor s.linkTableOffset s.inputLen
  chunk : cursorOk s.byteChunkCursor s.byteChunkOffset s.inputLen
  owed : s.outputCursor.toNat < s.decodedSize.toNat
  fits : s.decodedSize.toNat ≤ s.config.outCapacity.toNat
  written : s.outWrittenTo s.outputCursor.toNat
  noError : s.errCode = none
  noResult : s.resultLen = 0

/-- What holds in DONE (R129). -/
structure State.DoneInv (s : State) : Prop where
  all : s.outputCursor = s.decodedSize
  fits : s.decodedSize.toNat ≤ s.config.outCapacity.toNat
  written : s.outWrittenTo s.outputCursor.toNat
  noError : s.errCode = none
  result : s.resultLen = s.decodedSize

/-- What the state-machine register says of the other registers. -/
def State.PhaseInv (s : State) : Prop :=
  match s.fsm with
  | .idle | .header => s.errCode = none ∧ s.resultLen = 0
  | .awaitMaskBit | .dispatch | .literal | .backref => s.LoopInv
  | .done => s.DoneInv
  | .error => s.errCode ≠ none ∧ s.resultLen = 0

/-- The invariant of the machine (R18, R24, R25, R129, R130): both memories canonical and within
their address spaces, and what the phase requires. -/
structure State.Inv (s : State) : Prop where
  inWf : s.inMem.wf = true
  outWf : s.outMem.wf = true
  inSpace : ∀ c ∈ s.inMem, c.1 < 2 ^ 32
  outSpace : ∀ c ∈ s.outMem, c.1 < s.config.outCapacity.toNat
  phase : s.PhaseInv

/-- The mask register is what is left of the word the mask cursor has just passed (R12, R42): no
word is loaded yet, or `maskWord` is that word shifted left by the bits consumed. -/
def State.MaskInv (s : State) : Prop :=
  s.fsm.inLoop = true →
    (s.maskCursor.toNat = 16 ∧ s.maskBitsLeft = 0 ∧ s.maskWord = 0) ∨
    (20 ≤ s.maskCursor.toNat ∧ s.maskBitsLeft.toNat ≤ 32 ∧
      ∃ w, readIn32 s.inMem (s.maskCursor.toNat - 4) = .ok w ∧
        s.maskWord = w <<< (32 - s.maskBitsLeft.toNat))

/-- The latch agrees with the state DISPATCH chose by it (R125). -/
def State.latchOk (s : State) : Prop :=
  (s.fsm = .literal → s.ctrlBit = true) ∧ (s.fsm = .backref → s.ctrlBit = false)

/-- How many bytes a token produces (R19). -/
def producedBy : Instr → Nat
  | .hdr _ _ _ => 0
  | .lit _ => 1
  | .refs lengthField _ => shortRun lengthField
  | .refx _ e => extendedRun e

/-- Control bits the loop has consumed beyond the finished tokens: one between AWAIT_MASK_BIT and
the end of the token (R124). -/
def Fsm.bitsInFlight : Fsm → Nat
  | .dispatch | .literal | .backref => 1
  | .idle | .header | .awaitMaskBit | .done | .error => 0

/-- R95: the registers of a call that has finished exactly the tokens `ts`. -/
structure State.Consumed (s : State) (ts : List Instr) : Prop where
  maskCursor : s.maskCursor.toNat = 16 + 4 * ((ts.length + s.fsm.bitsInFlight + 31) / 32)
  maskBits : s.maskBitsLeft.toNat = (32 - (ts.length + s.fsm.bitsInFlight) % 32) % 32
  link : s.linkCursor.toNat = s.linkTableOffset.toNat + (ts.flatMap linkBytes).length
  chunk : s.byteChunkCursor.toNat = s.byteChunkOffset.toNat + (ts.flatMap chunkBytes).length
  output : s.outputCursor.toNat = (ts.map producedBy).sum
  tokens : ∀ t ∈ ts, t.wellFormed = true ∧ controlBit t ≠ none

/-- `k` steps of the engine alone, stopping at a fault or a refusal. -/
def engineRun : Nat → State → Host.Outcome State Fault Refusal
  | 0, s => .next s
  | k + 1, s =>
    match engineStep s with
    | .next t => engineRun k t
    | .fault f => .fault f
    | .refused r => .refused r

/-- A call is over when, and only when, `fsm` is DONE or ERROR (R129). -/
def State.over (s : State) : Bool := s.done || s.error

end Sys2Proof.Machine
end

