-- ==== Sys2Proof/Certificates/Slice0/Obligations.lean ====
section
/-! DEFINITION. The statements for the provers. Each docstring names the rules of spec/ it
formalises. -/

open Sys2Proof Sys2Proof.Machine

/-! ## Encodings -/

/-- R61, R63, R64, R67: decoding the bytes an instruction is encoded in gives it back, whatever tag
the header has and whatever follows in either stream. -/
def Obligations.DecodeOfEncodeIsTheInstruction : Prop :=
  (∀ tag size link chunk : Word, ∀ rest,
    decodeHeader (headerBytes tag size link chunk ++ rest) = .ok (.hdr size link chunk)) ∧
  ∀ i : Instr, i.wellFormed = true →
    decode (encode i) = .ok i ∧
    ∀ c, controlBit i = some c → ∀ link chunk,
      decodeToken c (linkBytes i ++ link) (chunkBytes i ++ chunk) = .ok (i, link, chunk)

/-- R67, R70: what the decoder takes from the two streams is exactly the encoding of the token it
answers, and the token is well formed. -/
def Obligations.TokenTakesExactlyItsEncoding : Prop :=
  ∀ c link chunk i link' chunk', decodeToken c link chunk = .ok (i, link', chunk') →
    i.wellFormed = true ∧ controlBit i = some c ∧ link = linkBytes i ++ link' ∧
      chunk = chunkBytes i ++ chunk'

/-- Words written out from the encodings of R61, R63 and R64: the header of program P2, its link
code 40 01, a literal 41, and the link code 00 1F with extension byte 16 of program P3. -/
def Obligations.SpecWordsDecode : Prop :=
  decode (.header [0, 0, 0, 0, 0, 0, 0, 8, 0, 0, 0, 0x14, 0, 0, 0, 0x16]) = .ok (.hdr 8 20 22) ∧
  decode (.token false [0x40, 0x01] []) = .ok (.refs 4 1) ∧
  decode (.token true [] [0x41]) = .ok (.lit 0x41) ∧
  decode (.token false [0x00, 0x1F] [0x16]) = .ok (.refx 31 0x16)

/-- R67: the opcode map, its rows tried in order, gives every key the kind its control bit and
length field select, which is the kind of the token the decoder reads; and the sizes of the pieces
are those of the map. -/
def Obligations.OpcodeMapSelectsTheDecodedKind : Prop :=
  (∀ code, selectKind (tokenKey true code) = some .lit) ∧
  (∀ code, linkLengthField code = 0 → selectKind (tokenKey false code) = some .refx) ∧
  (∀ code, linkLengthField code ≠ 0 → selectKind (tokenKey false code) = some .refs) ∧
  (∀ c code b i link' chunk', decodeToken c (bytes16 code) [b] = .ok (i, link', chunk') →
    i.kind = selectKind (tokenKey c code)) ∧
  ∀ i : Instr, ((linkBytes i).length, (chunkBytes i).length) =
    match i with
    | .hdr _ _ _ => (0, 0)
    | .lit _ => (0, 1)
    | .refs _ _ => (2, 0)
    | .refx _ _ => (2, 1)

/-- R103: the split of a link code: the distance is its low twelve bits, the length field its high
four, both unsigned, for every code. -/
def Obligations.LinkCodeSplits : Prop :=
  ∀ code : BitVec 16,
    (linkDistance code).toNat = code.toNat % 2 ^ 12 ∧
    (linkLengthField code).toNat = code.toNat / 2 ^ 12 ∧
    linkCode (linkLengthField code) (linkDistance code) = code

/-- R68: no bit pattern is illegal as an encoding: sixteen bytes are a header, and a control bit with
two link bytes and a byte of the byte-chunk stream are a token. -/
def Obligations.EveryBitPatternDecodes : Prop :=
  (∀ bytes : List Byte, 16 ≤ bytes.length → ∃ i, decode (.header bytes) = .ok i) ∧
  ∀ c b0 b1 b, ∃ i, decode (.token c [b0, b1] [b]) = .ok i

/-- R65, R66, R104: the run lengths of the two forms are 3 .. 17 and 18 .. 273, and every length in
3 .. 273 with every distance has exactly one well-formed back-reference. -/
def Obligations.EachRunLengthHasOneEncoding : Prop :=
  (∀ lf d, (Instr.refs lf d).wellFormed = true →
    3 ≤ producedBy (.refs lf d) ∧ producedBy (.refs lf d) ≤ 17) ∧
  (∀ d e, 18 ≤ producedBy (.refx d e) ∧ producedBy (.refx d e) ≤ 273) ∧
  ∀ n, 3 ≤ n → n ≤ 273 → ∀ d : BitVec 12,
    ∃! i : Instr, i.wellFormed = true ∧ producedBy i = n ∧
      ((∃ lf, i = .refs lf d) ∨ ∃ e, i = .refx d e)

/-- R71: the token notation. In range, `REFS d=D, n=N` has control bit 0 and link code
(N-2) * 4096 + D, `REFX d=D, n=N` control bit 0, link code D and extension byte N-18, and `REF` is
the one of the two whose range holds N; outside the ranges there is no expansion. -/
def Obligations.NotationStandsForItsPieces : Prop :=
  (∀ b, assemble (.lit b) = some (.lit b) ∧ encode (.lit b) = .token true [] [b]) ∧
  (∀ d n, d ≤ 4095 → 3 ≤ n → n ≤ 17 → ∃ i, assemble (.refs d n) = some i ∧
    i.wellFormed = true ∧ i.kind = some .refs ∧ assemble (.ref d n) = some i ∧
    encode i = .token false (bytes16 (BitVec.ofNat 16 ((n - 2) * 4096 + d))) []) ∧
  (∀ d n, d ≤ 4095 → 18 ≤ n → n ≤ 273 → ∃ i, assemble (.refx d n) = some i ∧
    i.wellFormed = true ∧ i.kind = some .refx ∧ assemble (.ref d n) = some i ∧
    encode i = .token false (bytes16 (BitVec.ofNat 16 d)) [BitVec.ofNat 8 (n - 18)]) ∧
  (∀ d n, ¬(d ≤ 4095 ∧ 3 ≤ n ∧ n ≤ 17) → assemble (.refs d n) = none) ∧
  (∀ d n, ¬(d ≤ 4095 ∧ 18 ≤ n ∧ n ≤ 273) → assemble (.refx d n) = none) ∧
  ∀ d n, ¬(d ≤ 4095 ∧ 3 ≤ n ∧ n ≤ 273) → assemble (.ref d n) = none

/-- R72: the canonical container of a token list: the tag stands at offset 0; the header decodes to
the size, the link offset 16 + 4W and the byte-chunk offset behind the link region; control bit k is
bit 31 - (k mod 32) of mask word k / 32 (k counted from 0), and the bits of the W words that no
token uses are 0; the link codes and the bytes stand at the two offsets in token order; and the
length is the end of the byte-chunk region. -/
def Obligations.CanonicalContainerLayout : Prop :=
  ∀ (tag size : Word) (ts : List Instr),
    (∀ t ∈ ts, controlBit t ≠ none) →
    (canonicalContainer tag size ts).length < 2 ^ 32 →
    let linkAt := 16 + 4 * maskWordCount ts.length
    let chunkAt := linkAt + (ts.flatMap linkBytes).length
    wordAt (canonicalContainer tag size ts) 0 = tag ∧
      decodeHeader (canonicalContainer tag size ts) =
        .ok (.hdr size (BitVec.ofNat 32 linkAt) (BitVec.ofNat 32 chunkAt)) ∧
      (∀ k t, ts[k]? = some t →
        some ((wordAt (canonicalContainer tag size ts) (16 + 4 * (k / 32))).getMsbD (k % 32)) =
          controlBit t) ∧
      (∀ k, ts.length ≤ k → k < 32 * maskWordCount ts.length →
        (wordAt (canonicalContainer tag size ts) (16 + 4 * (k / 32))).getMsbD (k % 32) = false) ∧
      (canonicalContainer tag size ts).drop linkAt =
        ts.flatMap linkBytes ++ ts.flatMap chunkBytes ∧
      (canonicalContainer tag size ts).length = chunkAt + (ts.flatMap chunkBytes).length

/-! ## Reads through the cursors -/

/-- R41: the reads of one, two and four bytes: a wide read is the big-endian composition of byte
reads at consecutive addresses. -/
def Obligations.WideReadsAreBigEndian : Prop :=
  ∀ (m : Memory) (a : Nat) (b0 b1 b2 b3 : Byte), m.read a = some b0 →
    readIn m a = .ok b0 ∧
    (m.read (a + 1) = some b1 →
      (∃ v, readIn16 m a = .ok v ∧ v.toNat = b0.toNat * 2 ^ 8 + b1.toNat) ∧
      (m.read (a + 2) = some b2 → m.read (a + 3) = some b3 →
        ∃ v, readIn32 m a = .ok v ∧
          v.toNat = b0.toNat * 2 ^ 24 + b1.toNat * 2 ^ 16 + b2.toNat * 2 ^ 8 + b3.toNat))

/-- R91: `nextBit`. With an unread bit it answers bit 31 and shifts; with none it first loads the
word at `maskCursor` if four bytes remain, and otherwise raises `TruncatedInput` with no register
changed. That 32 shifts, each the one `nextBit` makes, leave `maskWord` 0 is R91's corner case (d),
the spec's own inference from R12: "so after 32 shifts `maskWord` is 0". -/
def Obligations.NextBitTakesTheTopBit : Prop :=
  (∀ s : State, (State.shiftMask^[32] s).maskWord = 0) ∧
  ∀ s : State,
    (s.maskBitsLeft ≠ 0 → s.nextBit = .ok (s.maskWord.getLsbD 31)
      { s with maskWord := s.maskWord <<< 1, maskBitsLeft := s.maskBitsLeft - 1 }) ∧
    (s.maskBitsLeft = 0 → s.maskCursor.toNat + 4 > s.inputLen.toNat →
      s.nextBit = .raised .truncatedInput s) ∧
    (s.maskBitsLeft = 0 → s.maskCursor.toNat + 4 ≤ s.inputLen.toNat →
      ∀ w, readIn32 s.inMem s.maskCursor.toNat = .ok w →
        s.nextBit = .ok (w.getLsbD 31)
          { s with
            maskCursor := s.maskCursor + 4
            maskWord := w <<< 1
            maskBitsLeft := 31 } ∧
        (s.maskCursor + 4).toNat = s.maskCursor.toNat + 4)

/-- R92: `nextByte`, over the integers; when it raises, the cursor is unchanged. -/
def Obligations.NextByteAdvancesByOne : Prop :=
  ∀ s : State,
    (s.byteChunkCursor.toNat + 1 > s.inputLen.toNat → s.nextByte = .raised .truncatedInput s) ∧
    (s.byteChunkCursor.toNat + 1 ≤ s.inputLen.toNat →
      ∀ b, readIn s.inMem s.byteChunkCursor.toNat = .ok b →
        s.nextByte = .ok b { s with byteChunkCursor := s.byteChunkCursor + 1 } ∧
        (s.byteChunkCursor + 1).toNat = s.byteChunkCursor.toNat + 1)

/-- R93: `nextCode`, over the integers; when it raises, the cursor is unchanged. -/
def Obligations.NextCodeAdvancesByTwo : Prop :=
  ∀ s : State,
    (s.linkCursor.toNat + 2 > s.inputLen.toNat → s.nextCode = .raised .truncatedInput s) ∧
    (s.linkCursor.toNat + 2 ≤ s.inputLen.toNat →
      ∀ v, readIn16 s.inMem s.linkCursor.toNat = .ok v →
        s.nextCode = .ok v { s with linkCursor := s.linkCursor + 2 } ∧
        (s.linkCursor + 2).toNat = s.linkCursor.toNat + 2)

/-! ## HDR -/

/-- R32, R80, R83, R128: `HDR` completes whenever the input has 16 bytes and the size fits: the
header registers, the call-start values, and the terminal test. -/
def Obligations.HdrStartsTheCall : Prop :=
  ∀ (size link chunk : Word) (s : State),
    16 ≤ s.inputLen.toNat → size.toNat ≤ s.config.outCapacity.toNat →
    exec (.hdr size link chunk) s = .next
      { s with
        decodedSize := size
        linkTableOffset := link
        byteChunkOffset := chunk
        maskCursor := 16
        maskWord := 0
        maskBitsLeft := 0
        linkCursor := link
        byteChunkCursor := chunk
        outputCursor := 0
        ctrlBit := false
        resultLen := if size = 0 then 0 else s.resultLen
        fsm := if size = 0 then .done else .awaitMaskBit }

/-- R80: the step of state HEADER. The three fields are the big-endian words of IN at 4, 8 and 12;
the length is tested before any of them is read, the capacity after. -/
def Obligations.HeaderStepParsesTheHeader : Prop :=
  ∀ s : State, s.fsm = .header →
    (s.inputLen.toNat < 16 → engineStep s =
      .next { s with errCode := some .malformedHeader, resultLen := 0, fsm := .error }) ∧
    (16 ≤ s.inputLen.toNat → ∀ size link chunk, readIn32 s.inMem 4 = .ok size →
      readIn32 s.inMem 8 = .ok link → readIn32 s.inMem 12 = .ok chunk →
      engineStep s = exec (.hdr size link chunk) s ∧
      (size.toNat > s.config.outCapacity.toNat → engineStep s =
        .next { s with
          decodedSize := size
          linkTableOffset := link
          byteChunkOffset := chunk
          errCode := some .allocationFailure
          resultLen := 0
          fsm := .error }) ∧
      (size.toNat ≤ s.config.outCapacity.toNat → engineStep s =
        .next { s with
          decodedSize := size
          linkTableOffset := link
          byteChunkOffset := chunk
          maskCursor := 16
          maskWord := 0
          maskBitsLeft := 0
          linkCursor := link
          byteChunkCursor := chunk
          outputCursor := 0
          ctrlBit := false
          resultLen := if size = 0 then 0 else s.resultLen
          fsm := if size = 0 then .done else .awaitMaskBit }))

/-- R81, R82: when `HDR` raises: `MalformedHeader` exactly below 16 bytes, with no header register
written; `AllocationFailure` exactly when the size exceeds the capacity, with only the header
registers written. -/
def Obligations.HdrRaisesInOrder : Prop :=
  ∀ (size link chunk : Word) (s : State),
    (s.inputLen.toNat < 16 → exec (.hdr size link chunk) s =
      .next { s with errCode := some .malformedHeader, resultLen := 0, fsm := .error }) ∧
    (16 ≤ s.inputLen.toNat → size.toNat > s.config.outCapacity.toNat →
      exec (.hdr size link chunk) s = .next
        { s with
          decodedSize := size
          linkTableOffset := link
          byteChunkOffset := chunk
          errCode := some .allocationFailure
          resultLen := 0
          fsm := .error }) ∧
    ∀ t, exec (.hdr size link chunk) s = .next t → t.fsm = .error →
      (t.errCode = some .malformedHeader ↔ s.inputLen.toNat < 16) ∧
      (t.errCode = some .allocationFailure ↔
        16 ≤ s.inputLen.toNat ∧ size.toNat > s.config.outCapacity.toNat)

/-- The frame of `HDR` (R10, R80, R148): both memories, INPUT_LEN, the configuration and the host
stay; when it raises, every working register stays too. -/
def Obligations.HdrFrame : Prop :=
  ∀ (size link chunk : Word) (s t : State), exec (.hdr size link chunk) s = .next t →
    t.config = s.config ∧ t.inMem = s.inMem ∧ t.inputLen = s.inputLen ∧ t.host = s.host ∧
    (∀ a, t.outMem.read a = s.outMem.read a) ∧
    (t.fsm ≠ .error → t.errCode = s.errCode) ∧
    (t.fsm = .awaitMaskBit → t.resultLen = s.resultLen) ∧
    (t.fsm = .error → t.maskCursor = s.maskCursor ∧ t.maskWord = s.maskWord ∧
      t.maskBitsLeft = s.maskBitsLeft ∧ t.linkCursor = s.linkCursor ∧
      t.byteChunkCursor = s.byteChunkCursor ∧ t.outputCursor = s.outputCursor ∧
      t.ctrlBit = s.ctrlBit)

/-! ## LIT -/

/-- R126, R128: `LIT` completes whenever its byte is within the input and its output address exists:
the byte appended, both cursors one further, the terminal test. -/
def Obligations.LitAppendsItsByte : Prop :=
  ∀ (b : Byte) (s : State),
    s.byteChunkCursor.toNat + 1 ≤ s.inputLen.toNat →
    s.outputCursor.toNat < s.config.outCapacity.toNat →
    exec (.lit b) s = .next
      { s with
        byteChunkCursor := s.byteChunkCursor + 1
        outMem := s.outMem.write s.outputCursor.toNat b
        outputCursor := s.outputCursor + 1
        resultLen := if s.outputCursor.toNat + 1 ≥ s.decodedSize.toNat then s.decodedSize
          else s.resultLen
        fsm := if s.outputCursor.toNat + 1 ≥ s.decodedSize.toNat then .done else .awaitMaskBit }

/-- R126, R128: the step of state LITERAL: past the input it raises `TruncatedInput`, appends nothing
and moves nothing; within it, where the byte of IN at the byte-chunk cursor has been written (log 2)
and the output cursor is below OUT_CAPACITY (log 5), that byte is appended unchanged, only the two
cursors advance, and the terminal test follows. -/
def Obligations.LiteralStepCopiesTheNextByte : Prop :=
  ∀ s : State, s.fsm = .literal →
    (s.byteChunkCursor.toNat + 1 > s.inputLen.toNat → engineStep s =
      .next { s with errCode := some .truncatedInput, resultLen := 0, fsm := .error }) ∧
    (s.byteChunkCursor.toNat + 1 ≤ s.inputLen.toNat →
      s.outputCursor.toNat < s.config.outCapacity.toNat →
      ∀ b, s.inMem.read s.byteChunkCursor.toNat = some b →
        engineStep s = exec (.lit b) s ∧
        ∃ out : Memory, engineStep s = .next
          { s with
            byteChunkCursor := s.byteChunkCursor + 1
            outMem := out
            outputCursor := s.outputCursor + 1
            resultLen := if s.outputCursor.toNat + 1 ≥ s.decodedSize.toNat then s.decodedSize
              else s.resultLen
            fsm := if s.outputCursor.toNat + 1 ≥ s.decodedSize.toNat then .done
              else .awaitMaskBit } ∧
          out.read s.outputCursor.toNat = some b ∧
          (∀ a, a ≠ s.outputCursor.toNat → out.read a = s.outMem.read a) ∧
          (s.byteChunkCursor + 1).toNat = s.byteChunkCursor.toNat + 1 ∧
          (s.outputCursor + 1).toNat = s.outputCursor.toNat + 1)

/-- R45, R126: `LIT` raises `TruncatedInput`, and only that, exactly when its byte is past the
input; every other register and all of OUT stay. -/
def Obligations.LitRaisesTruncatedInput : Prop :=
  ∀ (b : Byte) (s : State),
    (s.byteChunkCursor.toNat + 1 > s.inputLen.toNat → exec (.lit b) s =
      .next { s with errCode := some .truncatedInput, resultLen := 0, fsm := .error }) ∧
    ∀ t, exec (.lit b) s = .next t → t.fsm = .error →
      s.byteChunkCursor.toNat + 1 > s.inputLen.toNat

/-- The frame of `LIT` (R10, R126): only `byteChunkCursor`, `outputCursor`, `fsm` and the status
registers can change, and of OUT only the byte at the output cursor. -/
def Obligations.LitFrame : Prop :=
  ∀ (b : Byte) (s t : State), exec (.lit b) s = .next t →
    t.config = s.config ∧ t.inMem = s.inMem ∧ t.inputLen = s.inputLen ∧ t.host = s.host ∧
    t.decodedSize = s.decodedSize ∧ t.linkTableOffset = s.linkTableOffset ∧
    t.byteChunkOffset = s.byteChunkOffset ∧ t.maskCursor = s.maskCursor ∧
    t.maskWord = s.maskWord ∧ t.maskBitsLeft = s.maskBitsLeft ∧ t.linkCursor = s.linkCursor ∧
    t.ctrlBit = s.ctrlBit ∧
    (t.fsm ≠ .error → t.errCode = s.errCode) ∧
    (t.fsm = .awaitMaskBit → t.resultLen = s.resultLen) ∧
    (t.fsm = .error → t.byteChunkCursor = s.byteChunkCursor ∧ t.outputCursor = s.outputCursor ∧
      t.outMem = s.outMem) ∧
    ∀ a, a ≠ s.outputCursor.toNat → t.outMem.read a = s.outMem.read a

/-! ## REFS and REFX -/

/-- R101, R104, R107, R109, R128: `REFS` completes whenever its link code is within the input, its
source has been written and its run fits: the link cursor two further, the run of
`lengthField + 2` bytes appended so that each byte is the one `distance + 1` before it, the
terminal test, and nothing else. -/
def Obligations.RefsAppendsItsRun : Prop :=
  ∀ (lf : BitVec 4) (d : BitVec 12) (s : State),
    s.linkCursor.toNat + 2 ≤ s.inputLen.toNat →
    d.toNat < s.outputCursor.toNat →
    s.outputCursor.toNat + (lf.toNat + 2) ≤ s.decodedSize.toNat →
    s.decodedSize.toNat ≤ s.config.outCapacity.toNat →
    s.outWrittenTo s.outputCursor.toNat → s.outMem.wf = true →
    ∃ out : Memory,
      exec (.refs lf d) s = .next
        { s with
          linkCursor := s.linkCursor + 2
          outMem := out
          outputCursor := s.outputCursor + BitVec.ofNat 32 (lf.toNat + 2)
          resultLen := if s.outputCursor.toNat + (lf.toNat + 2) = s.decodedSize.toNat
            then s.decodedSize else s.resultLen
          fsm := if s.outputCursor.toNat + (lf.toNat + 2) = s.decodedSize.toNat
            then .done else .awaitMaskBit } ∧
      out.wf = true ∧
      (∀ k < lf.toNat + 2,
        out.read (s.outputCursor.toNat + k) =
          out.read (s.outputCursor.toNat + k - d.toNat - 1) ∧
        out.read (s.outputCursor.toNat + k) ≠ none) ∧
      ∀ a, a < s.outputCursor.toNat ∨ s.outputCursor.toNat + (lf.toNat + 2) ≤ a →
        out.read a = s.outMem.read a

/-- R102, R104, R107, R109, R128: `REFX`, the same with `e + 18` bytes, the byte-chunk cursor one
further as well. -/
def Obligations.RefxAppendsItsRun : Prop :=
  ∀ (d : BitVec 12) (e : Byte) (s : State),
    s.linkCursor.toNat + 2 ≤ s.inputLen.toNat →
    s.byteChunkCursor.toNat + 1 ≤ s.inputLen.toNat →
    d.toNat < s.outputCursor.toNat →
    s.outputCursor.toNat + (e.toNat + 18) ≤ s.decodedSize.toNat →
    s.decodedSize.toNat ≤ s.config.outCapacity.toNat →
    s.outWrittenTo s.outputCursor.toNat → s.outMem.wf = true →
    ∃ out : Memory,
      exec (.refx d e) s = .next
        { s with
          linkCursor := s.linkCursor + 2
          byteChunkCursor := s.byteChunkCursor + 1
          outMem := out
          outputCursor := s.outputCursor + BitVec.ofNat 32 (e.toNat + 18)
          resultLen := if s.outputCursor.toNat + (e.toNat + 18) = s.decodedSize.toNat
            then s.decodedSize else s.resultLen
          fsm := if s.outputCursor.toNat + (e.toNat + 18) = s.decodedSize.toNat
            then .done else .awaitMaskBit } ∧
      out.wf = true ∧
      (∀ k < e.toNat + 18,
        out.read (s.outputCursor.toNat + k) =
          out.read (s.outputCursor.toNat + k - d.toNat - 1) ∧
        out.read (s.outputCursor.toNat + k) ≠ none) ∧
      ∀ a, a < s.outputCursor.toNat ∨ s.outputCursor.toNat + (e.toNat + 18) ≤ a →
        out.read a = s.outMem.read a

/-- R100, R105, R106, R149: the errors of `REFS` in their order: link code, distance, overshoot
(with the hardware's policy Reject), what each leaves, and that an error means its condition. -/
def Obligations.RefsRaisesInOrder : Prop :=
  ∀ (lf : BitVec 4) (d : BitVec 12) (s : State),
    (s.linkCursor.toNat + 2 > s.inputLen.toNat → exec (.refs lf d) s =
      .next { s with errCode := some .truncatedInput, resultLen := 0, fsm := .error }) ∧
    (s.linkCursor.toNat + 2 ≤ s.inputLen.toNat → s.outputCursor.toNat ≤ d.toNat →
      exec (.refs lf d) s = .next
        { s with
          linkCursor := s.linkCursor + 2
          errCode := some .invalidBackReference
          resultLen := 0
          fsm := .error }) ∧
    (s.linkCursor.toNat + 2 ≤ s.inputLen.toNat → d.toNat < s.outputCursor.toNat →
      s.outputCursor.toNat + (lf.toNat + 2) > s.decodedSize.toNat →
      s.config.overshootPolicy = .reject →
      exec (.refs lf d) s = .next
        { s with
          linkCursor := s.linkCursor + 2
          errCode := some .outputSizeMismatch
          resultLen := 0
          fsm := .error }) ∧
    ∀ t, exec (.refs lf d) s = .next t → t.fsm = .error →
      t.errCode = some .truncatedInput ∧ s.linkCursor.toNat + 2 > s.inputLen.toNat ∨
      t.errCode = some .invalidBackReference ∧ s.linkCursor.toNat + 2 ≤ s.inputLen.toNat ∧
        s.outputCursor.toNat ≤ d.toNat ∨
      t.errCode = some .outputSizeMismatch ∧ s.linkCursor.toNat + 2 ≤ s.inputLen.toNat ∧
        d.toNat < s.outputCursor.toNat ∧
        s.outputCursor.toNat + (lf.toNat + 2) > s.decodedSize.toNat ∧
        s.config.overshootPolicy = .reject

/-- R100, R105, R106, R149: the errors of `REFX` in their order: link code, extension byte,
distance, overshoot (with the hardware's policy Reject), what each leaves, and that an error means
its condition. -/
def Obligations.RefxRaisesInOrder : Prop :=
  ∀ (d : BitVec 12) (e : Byte) (s : State),
    (s.linkCursor.toNat + 2 > s.inputLen.toNat → exec (.refx d e) s =
      .next { s with errCode := some .truncatedInput, resultLen := 0, fsm := .error }) ∧
    (s.linkCursor.toNat + 2 ≤ s.inputLen.toNat →
      s.byteChunkCursor.toNat + 1 > s.inputLen.toNat → exec (.refx d e) s = .next
        { s with
          linkCursor := s.linkCursor + 2
          errCode := some .truncatedInput
          resultLen := 0
          fsm := .error }) ∧
    (s.linkCursor.toNat + 2 ≤ s.inputLen.toNat →
      s.byteChunkCursor.toNat + 1 ≤ s.inputLen.toNat → s.outputCursor.toNat ≤ d.toNat →
      exec (.refx d e) s = .next
        { s with
          linkCursor := s.linkCursor + 2
          byteChunkCursor := s.byteChunkCursor + 1
          errCode := some .invalidBackReference
          resultLen := 0
          fsm := .error }) ∧
    (s.linkCursor.toNat + 2 ≤ s.inputLen.toNat →
      s.byteChunkCursor.toNat + 1 ≤ s.inputLen.toNat → d.toNat < s.outputCursor.toNat →
      s.outputCursor.toNat + (e.toNat + 18) > s.decodedSize.toNat →
      s.config.overshootPolicy = .reject →
      exec (.refx d e) s = .next
        { s with
          linkCursor := s.linkCursor + 2
          byteChunkCursor := s.byteChunkCursor + 1
          errCode := some .outputSizeMismatch
          resultLen := 0
          fsm := .error }) ∧
    ∀ t, exec (.refx d e) s = .next t → t.fsm = .error →
      t.errCode = some .truncatedInput ∧ (s.linkCursor.toNat + 2 > s.inputLen.toNat ∨
        s.byteChunkCursor.toNat + 1 > s.inputLen.toNat) ∨
      t.errCode = some .invalidBackReference ∧ s.linkCursor.toNat + 2 ≤ s.inputLen.toNat ∧
        s.byteChunkCursor.toNat + 1 ≤ s.inputLen.toNat ∧ s.outputCursor.toNat ≤ d.toNat ∨
      t.errCode = some .outputSizeMismatch ∧ s.linkCursor.toNat + 2 ≤ s.inputLen.toNat ∧
        s.byteChunkCursor.toNat + 1 ≤ s.inputLen.toNat ∧ d.toNat < s.outputCursor.toNat ∧
        s.outputCursor.toNat + (e.toNat + 18) > s.decodedSize.toNat ∧
        s.config.overshootPolicy = .reject

/-- The frame of `REFS` (R10, R101, R109): only `linkCursor`, `outputCursor`, `fsm` and the status
registers can change; of OUT only the bytes the run is copied to, at the output cursor, as many as
the meaning's own `copyCount` says; none when it says none or when an error is raised. -/
def Obligations.RefsFrame : Prop :=
  ∀ (lf : BitVec 4) (d : BitVec 12) (s t : State), exec (.refs lf d) s = .next t →
    t.config = s.config ∧ t.inMem = s.inMem ∧ t.inputLen = s.inputLen ∧ t.host = s.host ∧
    t.decodedSize = s.decodedSize ∧ t.linkTableOffset = s.linkTableOffset ∧
    t.byteChunkOffset = s.byteChunkOffset ∧ t.maskCursor = s.maskCursor ∧
    t.maskWord = s.maskWord ∧ t.maskBitsLeft = s.maskBitsLeft ∧
    t.byteChunkCursor = s.byteChunkCursor ∧ t.ctrlBit = s.ctrlBit ∧
    (t.fsm ≠ .error → t.errCode = s.errCode) ∧
    (t.fsm = .awaitMaskBit → t.resultLen = s.resultLen) ∧
    (t.fsm = .error → t.outputCursor = s.outputCursor ∧ t.outMem = s.outMem) ∧
    (s.copyCount (shortRun lf) = none → ∀ a, t.outMem.read a = s.outMem.read a) ∧
    ∀ n, s.copyCount (shortRun lf) = some n → ∀ a,
      a < s.outputCursor.toNat ∨ s.outputCursor.toNat + n ≤ a →
        t.outMem.read a = s.outMem.read a

/-- The frame of `REFX` (R10, R102, R109): as that of `REFS`, but `byteChunkCursor` can change. -/
def Obligations.RefxFrame : Prop :=
  ∀ (d : BitVec 12) (e : Byte) (s t : State), exec (.refx d e) s = .next t →
    t.config = s.config ∧ t.inMem = s.inMem ∧ t.inputLen = s.inputLen ∧ t.host = s.host ∧
    t.decodedSize = s.decodedSize ∧ t.linkTableOffset = s.linkTableOffset ∧
    t.byteChunkOffset = s.byteChunkOffset ∧ t.maskCursor = s.maskCursor ∧
    t.maskWord = s.maskWord ∧ t.maskBitsLeft = s.maskBitsLeft ∧ t.ctrlBit = s.ctrlBit ∧
    (t.fsm ≠ .error → t.errCode = s.errCode) ∧
    (t.fsm = .awaitMaskBit → t.resultLen = s.resultLen) ∧
    (t.fsm = .error → t.outputCursor = s.outputCursor ∧ t.outMem = s.outMem) ∧
    (s.copyCount (extendedRun e) = none → ∀ a, t.outMem.read a = s.outMem.read a) ∧
    ∀ n, s.copyCount (extendedRun e) = some n → ∀ a,
      a < s.outputCursor.toNat ∨ s.outputCursor.toNat + n ≤ a →
        t.outMem.read a = s.outMem.read a

/-- R109: the side effects of a `resolve` that succeeds: the link cursor two further, the byte-chunk
cursor one further exactly when the length field is 0, `n` bytes written at the old output cursor,
which is `n` further; no other register and no byte of OUT below it, or above the run, changes.
With Reject, `n` is the run length. -/
def Obligations.ResolveSideEffects : Prop :=
  ∀ s t : State, s.resolve = .ok () t →
    ∃ code n, readIn16 s.inMem s.linkCursor.toNat = .ok code ∧
      t = { s with
        linkCursor := s.linkCursor + 2
        byteChunkCursor := if linkLengthField code = 0 then s.byteChunkCursor + 1
          else s.byteChunkCursor
        outMem := t.outMem
        outputCursor := s.outputCursor + BitVec.ofNat 32 n } ∧
      t.linkCursor.toNat = s.linkCursor.toNat + 2 ∧
      t.byteChunkCursor.toNat =
        s.byteChunkCursor.toNat + (if linkLengthField code = 0 then 1 else 0) ∧
      t.outputCursor.toNat = s.outputCursor.toNat + n ∧
      (∀ i < n, t.outMem.read (s.outputCursor.toNat + i) ≠ none) ∧
      (∀ a, a < s.outputCursor.toNat ∨ s.outputCursor.toNat + n ≤ a →
        t.outMem.read a = s.outMem.read a) ∧
      (s.config.overshootPolicy = .reject →
        (linkLengthField code ≠ 0 → n = (linkLengthField code).toNat + 2) ∧
        (linkLengthField code = 0 →
          ∃ e, s.inMem.read s.byteChunkCursor.toNat = some e ∧ n = e.toNat + 18))

/-- R107: the copy of a run, byte by byte in increasing order: every byte of the run is the one
`distance + 1` places before it in the output as it stands after the run, which has been written. -/
def Obligations.RunFollowsTheReplayLaw : Prop :=
  ∀ (d : BitVec 12) (n : Nat) (s t : State), s.replay d n = .ok () t →
    ∃ k, s.copyCount n = some k ∧ ∀ i < k,
      d.toNat + 1 ≤ s.outputCursor.toNat + i ∧
      t.outMem.read (s.outputCursor.toNat + i) =
        t.outMem.read (s.outputCursor.toNat + i - d.toNat - 1) ∧
      t.outMem.read (s.outputCursor.toNat + i) ≠ none

/-- R108: a run repeats cyclically the `distance + 1` bytes before the output cursor, also where it
overlaps itself. -/
def Obligations.RunRepeatsThePrecedingBytes : Prop :=
  ∀ (d : BitVec 12) (n : Nat) (s t : State), s.replay d n = .ok () t →
    ∀ k, s.copyCount n = some k → ∀ i < k,
      t.outMem.read (s.outputCursor.toNat + i) =
        s.outMem.read (s.outputCursor.toNat - (d.toNat + 1) + i % (d.toNat + 1))

/-- R106: with the policy Truncate a run that would pass `decodedSize` is cut there and the call
ends in DONE, for both forms. -/
def Obligations.TruncatePolicyCutsTheRun : Prop :=
  ∀ (d : BitVec 12) (s : State),
    s.config.overshootPolicy = .truncate →
    s.linkCursor.toNat + 2 ≤ s.inputLen.toNat →
    d.toNat < s.outputCursor.toNat → s.outputCursor.toNat < s.decodedSize.toNat →
    s.decodedSize.toNat ≤ s.config.outCapacity.toNat →
    s.outWrittenTo s.outputCursor.toNat →
    (∀ lf : BitVec 4, s.outputCursor.toNat + (lf.toNat + 2) > s.decodedSize.toNat →
      ∃ t, exec (.refs lf d) s = .next t ∧ t.fsm = .done ∧ t.resultLen = s.decodedSize ∧
        t.outputCursor = s.decodedSize ∧
        (∀ a, s.outputCursor.toNat ≤ a → a < s.decodedSize.toNat →
          t.outMem.read a = t.outMem.read (a - d.toNat - 1) ∧ t.outMem.read a ≠ none) ∧
        ∀ a, a < s.outputCursor.toNat ∨ s.decodedSize.toNat ≤ a →
          t.outMem.read a = s.outMem.read a) ∧
    ∀ e : Byte, s.byteChunkCursor.toNat + 1 ≤ s.inputLen.toNat →
      s.outputCursor.toNat + (e.toNat + 18) > s.decodedSize.toNat →
      ∃ t, exec (.refx d e) s = .next t ∧ t.fsm = .done ∧ t.resultLen = s.decodedSize ∧
        t.outputCursor = s.decodedSize ∧
        (∀ a, s.outputCursor.toNat ≤ a → a < s.decodedSize.toNat →
          t.outMem.read a = t.outMem.read (a - d.toNat - 1) ∧ t.outMem.read a ≠ none) ∧
        ∀ a, a < s.outputCursor.toNat ∨ s.decodedSize.toNat ≤ a →
          t.outMem.read a = s.outMem.read a

/-- R47, R106: under neither policy does any instruction write OUT at or above `decodedSize`, from
a state in which a byte is still owed (R18). -/
def Obligations.NothingIsWrittenAboveDecodedSize : Prop :=
  ∀ (i : Instr) (s t : State), s.outputCursor.toNat < s.decodedSize.toNat →
    exec i s = .next t → ∀ a, s.decodedSize.toNat ≤ a → t.outMem.read a = s.outMem.read a

/-! ## The state machine -/

/-- R127: the step of state BACKREF, which fetches, decodes and runs `REFS` or `REFX`, is
`resolve()` of R100 followed by the terminal test, in every state. -/
def Obligations.BackrefStepIsResolve : Prop :=
  ∀ s : State, s.fsm = .backref →
    engineStep s = (s.resolve.bind fun _ t => .ok () t.terminalTest).finish

/-- R124: the step of state AWAIT_MASK_BIT latches what `nextBit` answers and goes to DISPATCH, or
enters ERROR with `TruncatedInput`. -/
def Obligations.AwaitStepLatchesTheBit : Prop :=
  ∀ s : State, s.fsm = .awaitMaskBit →
    (∀ c t, s.nextBit = .ok c t → engineStep s = .next { t with ctrlBit := c, fsm := .dispatch }) ∧
    (∀ e t, s.nextBit = .raised e t → e = .truncatedInput ∧ engineStep s =
      .next { s with errCode := some .truncatedInput, resultLen := 0, fsm := .error })

/-- R125: the step of state DISPATCH reads the latch and writes only `fsm`. -/
def Obligations.DispatchStepFollowsTheLatch : Prop :=
  ∀ s : State, s.fsm = .dispatch →
    (s.ctrlBit = true → engineStep s = .next { s with fsm := .literal }) ∧
    (s.ctrlBit = false → engineStep s = .next { s with fsm := .backref })

/-- R120, R157: in IDLE, DONE and ERROR the engine has no step; it waits, and waiting loses no
state. -/
def Obligations.WaitingLosesNoState : Prop :=
  ∀ s : State, s.busy = false → engineStep s = .next s

/-- R121: the transitions of the engine, and no other: the state after each, and the errors each
state can raise (R140 to R145). -/
def Obligations.EngineTransitions : Prop :=
  ∀ s t : State, engineStep s = .next t →
    match s.fsm with
    | .idle | .done | .error => t = s
    | .header =>
      t.fsm = .awaitMaskBit ∨ t.fsm = .done ∨
      t.fsm = .error ∧ t.resultLen = 0 ∧
        (t.errCode = some .malformedHeader ∨ t.errCode = some .allocationFailure)
    | .awaitMaskBit =>
      t.fsm = .dispatch ∨
      t.fsm = .error ∧ t.resultLen = 0 ∧ t.errCode = some .truncatedInput
    | .dispatch => t.fsm = .literal ∨ t.fsm = .backref
    | .literal =>
      t.fsm = .awaitMaskBit ∨ t.fsm = .done ∨
      t.fsm = .error ∧ t.resultLen = 0 ∧ t.errCode = some .truncatedInput
    | .backref =>
      t.fsm = .awaitMaskBit ∨ t.fsm = .done ∨
      t.fsm = .error ∧ t.resultLen = 0 ∧
        (t.errCode = some .truncatedInput ∨ t.errCode = some .invalidBackReference ∨
          t.errCode = some .outputSizeMismatch ∧ s.config.overshootPolicy = .reject)

/-- A step runs the decoded instruction (R43, R123, R126, R127): with no host move pending, the step
is the engine's, and where the bytes at the cursor, or IN[4 .. 15] in HEADER, are decoded it is exec
of that instruction. With a host move pending, whichever it is, the step is that move from the state
without it, and the move `wait` is the engine's step (how the host's moves are taken is the model's
choice, log 3). -/
def Obligations.StepRunsTheDecodedInstruction : Prop :=
  (∀ s i bytes, s.host.moves = [] → s.fsm = .header → 16 ≤ s.inputLen.toNat →
    readInBytes s.inMem 4 12 = .ok bytes → decodeHeaderFields bytes = .ok i →
    step s = exec i s) ∧
  (∀ s i bytes, s.host.moves = [] → s.fsm = .literal →
    s.byteChunkCursor.toNat + 1 ≤ s.inputLen.toNat →
    readInBytes s.inMem s.byteChunkCursor.toNat 1 = .ok bytes →
    decode (.token true [] bytes) = .ok i → step s = exec i s) ∧
  (∀ s i code, s.host.moves = [] → s.fsm = .backref →
    s.linkCursor.toNat + 2 ≤ s.inputLen.toNat →
    readInBytes s.inMem s.linkCursor.toNat 2 = .ok code →
    (needsExtension code = false → decode (.token false code []) = .ok i → step s = exec i s) ∧
    (needsExtension code = true → s.byteChunkCursor.toNat + 1 ≤ s.inputLen.toNat →
      ∀ bytes, readInBytes s.inMem s.byteChunkCursor.toNat 1 = .ok bytes →
        decode (.token false code bytes) = .ok i → step s = exec i s)) ∧
  (∀ s, s.host.moves = [] → step s = engineStep s) ∧
  (∀ s m ms, s.host.moves = m :: ms →
    step s = hostStep m { s with host := ⟨ms, s.host.reading⟩ }) ∧
  ∀ s, hostStep .wait s = engineStep s

/-! ## The host -/

/-- R122: START. In IDLE, DONE and ERROR it clears `errCode` and `resultLen` and goes to HEADER,
raising `busy`; in a busy state it has no effect. -/
def Obligations.StartBeginsACallUnlessBusy : Prop :=
  ∀ s : State,
    (s.fsm = .idle ∨ s.fsm = .done ∨ s.fsm = .error →
      ∃ t, hostStep .start s = .next t ∧
        t = { s with errCode := none, resultLen := 0, fsm := .header } ∧
        t.busy = true ∧ t.done = false ∧ t.error = false) ∧
    (s.fsm.inLoop = true ∨ s.fsm = .header → hostStep .start s = .next s)

/-- R170: reset, from any state: IDLE, no error, no result, INPUT_LEN 0, all flags 0, and the engine
does nothing until START. -/
def Obligations.ResetFromAnyState : Prop :=
  ∀ s : State, ∃ t, hostStep .reset s = .next t ∧
    t.fsm = .idle ∧ t.errCode = none ∧ t.resultLen = 0 ∧ t.inputLen = 0 ∧
    t.busy = false ∧ t.done = false ∧ t.error = false ∧ t.callResult = none ∧
    engineStep t = .next t

/-- R31: the values the spec gives for reset. -/
def Obligations.ResetValues : Prop :=
  State.reset.fsm = .idle ∧ State.reset.errCode = none ∧ State.reset.resultLen = 0 ∧
  State.reset.inputLen = 0 ∧ State.reset.busy = false ∧ State.reset.done = false ∧
  State.reset.error = false

/-- R57: the host's windows: IN and INPUT_LEN are written only while not busy; a byte of OUT is read
only in DONE and only below `resultLen`. -/
def Obligations.HostAccessWindows : Prop :=
  ∀ s : State,
    (s.busy = true → ∀ a b len,
      hostStep (.writeIn a b) s = .refused .hostWriteWhileBusy ∧
      hostStep (.writeInputLen len) s = .refused .hostWriteWhileBusy) ∧
    (s.busy = false → ∀ a b len,
      hostStep (.writeIn a b) s = .next { s with inMem := s.inMem.write a.toNat b } ∧
      hostStep (.writeInputLen len) s = .next { s with inputLen := len }) ∧
    (s.done = false → ∀ a, hostStep (.readOut a) s = .refused .hostReadOutNotDone) ∧
    (s.done = true → ∀ a,
      (s.resultLen.toNat ≤ a.toNat →
        hostStep (.readOut a) s = .refused .hostReadOutAboveResult) ∧
      (a.toNat < s.resultLen.toNat → ∀ b, s.outMem.read a.toNat = some b →
        hostStep (.readOut a) s =
          .next { s with host := ⟨s.host.moves, some (.outByte b)⟩ }))

/-- R10, R20, R24, R140, R179: the flags are functions of `fsm`, at most one is 1; and the host's
reads: in every state poll answers the three flags, and a read of `errCode` (0 to 5), of `resultLen`
and of INPUT_LEN answers the register; each leaves everything else as it was. That an answer is kept
in `host.reading` is the model's choice (log 3). -/
def Obligations.StatusFlagsAndCodes : Prop :=
  ∀ s : State,
    (s.busy = true ↔ s.fsm = .header ∨ s.fsm.inLoop = true) ∧
    (s.done = true ↔ s.fsm = .done) ∧ (s.error = true ↔ s.fsm = .error) ∧
    ¬(s.busy = true ∧ s.done = true) ∧ ¬(s.busy = true ∧ s.error = true) ∧
    ¬(s.done = true ∧ s.error = true) ∧
    hostStep .poll s = .next { s with host := ⟨s.host.moves, some (.status
      (decide (s.fsm = .header ∨ s.fsm.inLoop = true)) (decide (s.fsm = .done))
      (decide (s.fsm = .error)))⟩ } ∧
    (∃ c : BitVec 3,
      hostStep .readErrCode s =
        .next { s with host := ⟨s.host.moves, some (.errCode c)⟩ } ∧
      c.toNat =
        match s.errCode with
        | none => 0
        | some .malformedHeader => 1
        | some .truncatedInput => 2
        | some .invalidBackReference => 3
        | some .outputSizeMismatch => 4
        | some .allocationFailure => 5) ∧
    hostStep .readResultLen s =
      .next { s with host := ⟨s.host.moves, some (.resultLen s.resultLen)⟩ } ∧
    hostStep .readInputLen s =
      .next { s with host := ⟨s.host.moves, some (.inputLen s.inputLen)⟩ }

/-! ## Invariants -/

/-- The invariant of R18 holds right after reset. -/
def Obligations.ResetMeetsTheInvariant : Prop := State.reset.Inv

/-- R18: every step of the machine, the engine's or the host's, keeps the invariant, with either
overshoot policy. -/
def Obligations.StepKeepsTheInvariant : Prop :=
  ∀ s t : State, s.Inv → step s = .next t → t.Inv

/-- R12, R42, R125: every step keeps `maskWord` the word just passed, shifted by the bits consumed,
so that bit 31 is the next control bit in stream order; and keeps the latch in agreement with the
state it selected. -/
def Obligations.StepKeepsTheMaskRegister : Prop :=
  ∀ s t : State, s.MaskInv → s.latchOk → step s = .next t → t.MaskInv ∧ t.latchOk

/-- R18: from a good loop state the step that reaches DONE leaves the mask cursor in 16 .. INPUT_LEN
and exactly `decodedSize` bytes produced. -/
def Obligations.DoneIsReachedWithinBounds : Prop :=
  ∀ s t : State, s.Inv → s.fsm.inLoop = true → engineStep s = .next t → t.fsm = .done →
    16 ≤ t.maskCursor.toNat ∧ t.maskCursor.toNat ≤ t.inputLen.toNat ∧
    t.maskBitsLeft.toNat ≤ 32 ∧ t.outputCursor = t.decodedSize ∧
    t.decodedSize.toNat ≤ t.config.outCapacity.toNat ∧
    ∃ bs, t.callResult = some (.ok bs) ∧ bs.length = t.decodedSize.toNat

/-- R17: from the end of the header step to the end of the call no cursor decreases. -/
def Obligations.CursorsNeverDecrease : Prop :=
  ∀ s t : State, s.fsm.inLoop = true → engineStep s = .next t →
    s.maskCursor.toNat ≤ t.maskCursor.toNat ∧ s.linkCursor.toNat ≤ t.linkCursor.toNat ∧
    s.byteChunkCursor.toNat ≤ t.byteChunkCursor.toNat ∧
    s.outputCursor.toNat ≤ t.outputCursor.toNat

/-- R44, R46, R84, R55: no step of the engine changes IN, INPUT_LEN, the configuration or the host's
side; only the header step changes the header registers. -/
def Obligations.EngineLeavesItsInputAlone : Prop :=
  ∀ s t : State, engineStep s = .next t →
    t.inMem = s.inMem ∧ t.inputLen = s.inputLen ∧ t.config = s.config ∧ t.host = s.host ∧
    (s.fsm ≠ .header → t.decodedSize = s.decodedSize ∧ t.linkTableOffset = s.linkTableOffset ∧
      t.byteChunkOffset = s.byteChunkOffset)

/-- R121, R129, R130, R150, R179: DONE and ERROR are left only by START and reset: no other move of
the host, and no step of the engine, changes the state, the error, the result length or OUT. -/
def Obligations.OnlyStartAndResetLeaveTheResult : Prop :=
  ∀ (s t : State) (m : HostMove), s.over = true → hostStep m s = .next t →
    m ≠ .start → m ≠ .reset →
    t.fsm = s.fsm ∧ t.errCode = s.errCode ∧ t.resultLen = s.resultLen ∧ t.outMem = s.outMem ∧
      t.callResult = s.callResult

/-- R4, R170: no step of the machine changes the instance's configuration. -/
def Obligations.ConfigurationNeverChanges : Prop :=
  ∀ s t : State, step s = .next t → t.config = s.config

/-- R47: OUT grows only by appending: outside LITERAL and BACKREF no byte changes, and there only
bytes from the old output cursor up to the new one. -/
def Obligations.OutputGrowsOnlyByAppending : Prop :=
  ∀ s t : State, engineStep s = .next t →
    (s.fsm ≠ .literal → s.fsm ≠ .backref → t.outMem = s.outMem) ∧
    (s.fsm = .literal ∨ s.fsm = .backref → ∀ a,
      a < s.outputCursor.toNat ∨ t.outputCursor.toNat ≤ a → t.outMem.read a = s.outMem.read a)

/-- R95: the registers count the tokens. The header step starts with none; each later step that
raises no error keeps the count or adds the token it fetched (policy Reject, the hardware's own). -/
def Obligations.RegistersCountTheTokens : Prop :=
  (∀ s t : State, s.fsm = .header → engineStep s = .next t → t.fsm ≠ .error → t.Consumed []) ∧
  ∀ (s t : State) (ts : List Instr), s.Inv → s.config.overshootPolicy = .reject →
    s.fsm.inLoop = true → s.Consumed ts → engineStep s = .next t → t.fsm ≠ .error →
    (s.fsm = .awaitMaskBit ∨ s.fsm = .dispatch → t.Consumed ts) ∧
    (s.fsm = .literal ∨ s.fsm = .backref →
      ∃ i u, s.fetch = some (.ok i u) ∧ t.Consumed (ts ++ [i]))

/-! ## Whole calls -/

/-- U2, R120: a busy engine in a good state, its input loaded, always has its step: no fault and no
refusal. -/
def Obligations.BusyEngineAlwaysSteps : Prop :=
  ∀ s : State, s.Inv → s.inputLoaded → s.busy = true → ∃ t, engineStep s = .next t

/-- R133: every call ends: from HEADER, its input loaded, the engine reaches DONE or ERROR within
1 + 3 * decodedSize steps, on any input. -/
def Obligations.EveryCallEnds : Prop :=
  ∀ s : State, s.fsm = .header → s.inputLoaded →
    ∃ k t, engineRun k s = .next t ∧ t.over = true ∧ k ≤ 1 + 3 * t.decodedSize.toNat

/-- R131: the call computes `decode`: from HEADER with the input in IN, the engine ends with the
bytes, or the error, that the big-step function gives. -/
def Obligations.CallComputesDecode : Prop :=
  ∀ (s : State) (input : List Byte), s.fsm = .header → s.holdsInput input →
    ∃ k t, engineRun k s = .next t ∧ t.over = true ∧
      t.callResult = some (decodeCall s.config input)

/-- R132, R171: the outcome of a call depends on IN below INPUT_LEN, INPUT_LEN and the configuration
alone: two machines that agree on these, each at START, go through the same states of `fsm` to the
same error, result length and result, whatever their registers, their old output and the rest of IN
hold. -/
def Obligations.CallDependsOnItsInputAlone : Prop :=
  ∀ s s' u u' : State, s.busy = false → s'.busy = false →
    hostStep .start s = .next u → hostStep .start s' = .next u' →
    s.config = s'.config → s.inputLen = s'.inputLen →
    (∀ a < s.inputLen.toNat, s.inMem.read a = s'.inMem.read a) →
    ∀ k t, engineRun k u = .next t →
      ∃ t', engineRun k u' = .next t' ∧ t.fsm = t'.fsm ∧ t.errCode = t'.errCode ∧
        t.resultLen = t'.resultLen ∧ t.callResult = t'.callResult
end

