-- ==== Sys2Proof/Laws/Decode.lean ====
section
/-! SUPPORT. The small laws of the byte-order and field helpers of the decoder and the encoder (R40,
R63, R103), so that no proof unfolds them. -/

namespace Sys2Proof

/-- Appending in arithmetic: the high part counts in units of the low part's range. -/
theorem append_toNat {v w : Nat} (a : BitVec v) (b : BitVec w) :
    (a ++ b).toNat = a.toNat * 2 ^ w + b.toNat := by
  rw [BitVec.toNat_append, ← Nat.shiftLeft_add_eq_or_of_lt b.isLt, Nat.shiftLeft_eq]

/-- R41: two bytes, the lower address in units of 2^8. -/
theorem be16_toNat (b0 b1 : Byte) : (be16 b0 b1).toNat = b0.toNat * 2 ^ 8 + b1.toNat :=
  append_toNat b0 b1

/-- R41: four bytes. -/
theorem be32_toNat (b0 b1 b2 b3 : Byte) : (be32 b0 b1 b2 b3).toNat =
    b0.toNat * 2 ^ 24 + b1.toNat * 2 ^ 16 + b2.toNat * 2 ^ 8 + b3.toNat := by
  rw [be32, append_toNat, be16_toNat, be16_toNat]; omega

theorem linkCode_toNat (lengthField : BitVec 4) (distance : BitVec 12) :
    (linkCode lengthField distance).toNat = lengthField.toNat * 4096 + distance.toNat :=
  append_toNat lengthField distance

/-- R103: `code & 0xFFF`. -/
theorem linkDistance_toNat (code : BitVec 16) : (linkDistance code).toNat = code.toNat % 4096 := by
  have h : code.toNat &&& 4095 = code.toNat % 4096 := Nat.and_two_pow_sub_one_eq_mod code.toNat 12
  rw [linkDistance, BitVec.toNat_setWidth, BitVec.toNat_and]
  show (code.toNat &&& 4095) % 2 ^ 12 = _
  rw [h]; omega

/-- R103: `code >> 12`. -/
theorem linkLengthField_toNat (code : BitVec 16) :
    (linkLengthField code).toNat = code.toNat / 4096 := by
  rw [linkLengthField, BitVec.toNat_setWidth, BitVec.toNat_ushiftRight, Nat.shiftRight_eq_div_pow]
  have := code.isLt
  omega

@[simp] theorem linkDistance_linkCode (lengthField : BitVec 4) (distance : BitVec 12) :
    linkDistance (linkCode lengthField distance) = distance := by
  apply BitVec.eq_of_toNat_eq
  rw [linkDistance_toNat, linkCode_toNat]
  have := distance.isLt
  omega

@[simp] theorem linkLengthField_linkCode (lengthField : BitVec 4) (distance : BitVec 12) :
    linkLengthField (linkCode lengthField distance) = lengthField := by
  apply BitVec.eq_of_toNat_eq
  rw [linkLengthField_toNat, linkCode_toNat]
  have := distance.isLt
  omega

/-- R63: the two fields are the whole code. -/
@[simp] theorem linkCode_fields (code : BitVec 16) :
    linkCode (linkLengthField code) (linkDistance code) = code := by
  apply BitVec.eq_of_toNat_eq
  rw [linkCode_toNat, linkLengthField_toNat, linkDistance_toNat]
  omega

theorem extract_toNat {w : Nat} (v : BitVec w) (lo n : Nat) :
    (v.extractLsb' lo n).toNat = v.toNat / 2 ^ lo % 2 ^ n := by
  rw [BitVec.extractLsb'_toNat, Nat.shiftRight_eq_div_pow]

/-- Splitting into bytes and joining them gives the value back (R40). -/
@[simp] theorem be16_extract (v : BitVec 16) :
    be16 (v.extractLsb' 8 8) (v.extractLsb' 0 8) = v := by
  apply BitVec.eq_of_toNat_eq
  rw [be16_toNat, extract_toNat, extract_toNat]
  have := v.isLt
  omega

/-- Splitting into bytes and joining them gives the value back (R40). -/
@[simp] theorem be32_extract (v : Word) :
    be32 (v.extractLsb' 24 8) (v.extractLsb' 16 8) (v.extractLsb' 8 8) (v.extractLsb' 0 8) = v := by
  apply BitVec.eq_of_toNat_eq
  rw [be32_toNat]
  simp only [extract_toNat]
  have := v.isLt
  omega

/-- Joining two bytes and splitting them gives them back (R40). -/
@[simp] theorem bytes16_be16 (b0 b1 : Byte) : bytes16 (be16 b0 b1) = [b0, b1] := by
  have h0 := b0.isLt
  have h1 := b1.isLt
  have e0 : (be16 b0 b1).extractLsb' 8 8 = b0 := by
    apply BitVec.eq_of_toNat_eq; rw [extract_toNat, be16_toNat]; omega
  have e1 : (be16 b0 b1).extractLsb' 0 8 = b1 := by
    apply BitVec.eq_of_toNat_eq; rw [extract_toNat, be16_toNat]; omega
  rw [bytes16, e0, e1]

/-- The first two bytes of a link code decide whether an extension byte is read (R67). -/
theorem needsExtension_bytes16 (code : BitVec 16) :
    needsExtension (bytes16 code) = decide (linkLengthField code = 0) := by
  simp only [bytes16, needsExtension, be16_extract]

/-- The bits of a token key: the link code below, the control bit on top (R67). -/
theorem tokenKey_getLsbD (c : Bool) (code : BitVec 16) (i : Nat) :
    (tokenKey c code).getLsbD i = if i < 16 then code.getLsbD i else decide (i = 16) && c := by
  show (BitVec.ofBool c ++ code : BitVec (1 + 16)).getLsbD i = _
  rw [BitVec.getLsbD_append]
  split
  · rfl
  · rw [BitVec.getLsbD_ofBool]
    congr 1
    simp only [decide_eq_decide]
    omega

end Sys2Proof
end

