-- ==== Sys2Proof/Laws/Memory.lean ====
section
/-! SUPPORT. The laws of the memories: what a read after a write gives, that every operation keeps
the canonical form and the address space, and all that the copy loop does (R47, R48, R107). -/

namespace Sys2Proof.Machine

/-! ## One byte -/

@[simp] theorem Memory.read_nil (x : Nat) : Memory.read [] x = none := rfl

theorem Memory.read_cons (a : Nat) (b : Byte) (rest : Memory) (x : Nat) :
    Memory.read ((a, b) :: rest) x = if a = x then some b else Memory.read rest x := rfl

/-- Reading the address just written gives the byte written. -/
@[simp] theorem Memory.read_write_self (m : Memory) (x : Nat) (v : Byte) :
    (m.write x v).read x = some v := by
  induction m with
  | nil => simp [Memory.write, Memory.read]
  | cons c rest ih =>
    obtain ⟨a, b⟩ := c
    by_cases h1 : x < a
    · simp [Memory.write, h1, Memory.read]
    · by_cases h2 : x = a
      · simp [Memory.write, h2, Memory.read]
      · have h3 : a ≠ x := fun h => h2 h.symm
        simpa [Memory.write, h1, h2, Memory.read, h3] using ih

/-- Every other address reads as before. -/
theorem Memory.read_write_ne (m : Memory) {x y : Nat} (v : Byte) (h : y ≠ x) :
    (m.write x v).read y = m.read y := by
  have hx : x ≠ y := fun e => h e.symm
  induction m with
  | nil => simp [Memory.write, Memory.read, hx]
  | cons c rest ih =>
    obtain ⟨a, b⟩ := c
    by_cases h1 : x < a
    · simp [Memory.write, h1, Memory.read, hx]
    · by_cases h2 : x = a
      · subst h2; simp [Memory.write, Memory.read, hx]
      · simp only [Memory.write, h1, h2, if_false, Memory.read_cons, ih]

theorem Memory.read_write (m : Memory) (x y : Nat) (v : Byte) :
    (m.write x v).read y = if y = x then some v else m.read y := by
  by_cases h : y = x
  · subst h; simp
  · simp [h, Memory.read_write_ne m v h]

/-! ## The canonical form -/

theorem Memory.risingFrom_write {lo x : Nat} {m : Memory} (v : Byte) (hx : lo < x)
    (h : Memory.risingFrom lo m = true) : Memory.risingFrom lo (m.write x v) = true := by
  induction m generalizing lo with
  | nil => simp [Memory.write, Memory.risingFrom, hx]
  | cons c rest ih =>
    obtain ⟨a, b⟩ := c
    simp only [Memory.risingFrom, Bool.and_eq_true, decide_eq_true_eq] at h
    by_cases h1 : x < a
    · simp [Memory.write, h1, Memory.risingFrom, hx, h.2]
    · by_cases h2 : x = a
      · subst h2; simp [Memory.write, Memory.risingFrom, hx, h.2]
      · have h3 : a < x := by omega
        simp [Memory.write, h1, h2, Memory.risingFrom, h.1, ih h3 h.2]

/-- A write keeps the addresses strictly rising. -/
theorem Memory.wf_write {m : Memory} (x : Nat) (v : Byte) (h : m.wf = true) :
    (m.write x v).wf = true := by
  cases m with
  | nil => rfl
  | cons c rest =>
    obtain ⟨a, b⟩ := c
    by_cases h1 : x < a
    · simpa [Memory.write, h1, Memory.wf, Memory.risingFrom] using h
    · by_cases h2 : x = a
      · subst h2; simpa [Memory.write, Memory.wf] using h
      · have h3 : a < x := by omega
        simpa [Memory.write, h1, h2, Memory.wf] using Memory.risingFrom_write v h3 h

/-- The memory of the state after reset is canonical. -/
theorem reset_inMem_wf : State.reset.inMem.wf = true := rfl

/-- The memory of the state after reset is canonical. -/
theorem reset_outMem_wf : State.reset.outMem.wf = true := rfl

/-- A write lists no address but the old ones and its own. -/
theorem Memory.mem_write {m : Memory} {x : Nat} {v : Byte} {c : Host.Cell}
    (h : c ∈ m.write x v) : c = (x, v) ∨ c ∈ m := by
  induction m with
  | nil => simpa [Memory.write] using h
  | cons d rest ih =>
    obtain ⟨a, b⟩ := d
    by_cases h1 : x < a
    · simpa [Memory.write, h1] using h
    · by_cases h2 : x = a
      · subst h2
        simp only [Memory.write, Nat.lt_irrefl, if_true, if_false, List.mem_cons] at h
        exact h.imp_right (List.mem_cons_of_mem _)
      · simp only [Memory.write, h1, h2, if_false, List.mem_cons] at h
        rcases h with h | h
        · exact .inr (h ▸ List.mem_cons_self)
        · exact (ih h).imp_right (List.mem_cons_of_mem _)

/-- A write inside an address space stays inside it. -/
theorem Memory.space_write {m : Memory} {x limit : Nat} (v : Byte) (hx : x < limit)
    (h : ∀ c ∈ m, c.1 < limit) : ∀ c ∈ m.write x v, c.1 < limit := fun c hc =>
  (Memory.mem_write hc).elim (fun e => e ▸ hx) (h c)

theorem Memory.wf_writeList {m : Memory} (x : Nat) (vs : List Byte) (h : m.wf = true) :
    (m.writeList x vs).wf = true := by
  induction vs generalizing m x with
  | nil => exact h
  | cons v vs ih => exact ih (x + 1) (Memory.wf_write x v h)

/-- An address that reads as a byte is listed. -/
theorem Memory.mem_of_read {m : Memory} {x : Nat} {v : Byte} (h : m.read x = some v) :
    (x, v) ∈ m := by
  induction m with
  | nil => simp at h
  | cons c rest ih =>
    obtain ⟨a, b⟩ := c
    by_cases h1 : a = x
    · subst h1
      simp only [Memory.read_cons, if_true, Option.some.injEq] at h
      exact h ▸ List.mem_cons_self
    · rw [Memory.read_cons, if_neg h1] at h
      exact List.mem_cons_of_mem _ (ih h)

/-- In a canonical memory an address above a bound on the left reads from the rest. -/
theorem Memory.read_of_risingFrom {lo x : Nat} {m : Memory}
    (h : Memory.risingFrom lo m = true) (hx : x ≤ lo) : m.read x = none := by
  induction m generalizing lo with
  | nil => rfl
  | cons c rest ih =>
    obtain ⟨a, b⟩ := c
    simp only [Memory.risingFrom, Bool.and_eq_true, decide_eq_true_eq] at h
    rw [Memory.read_cons, if_neg (by omega)]
    exact ih h.2 (by omega)

/-- Canonical memories that read alike are equal data. -/
theorem Memory.ext_of_wf {m m' : Memory} (h : m.wf = true) (h' : m'.wf = true)
    (hr : ∀ x, m.read x = m'.read x) : m = m' := by
  induction m generalizing m' with
  | nil =>
    cases m' with
    | nil => rfl
    | cons c rest => obtain ⟨a, b⟩ := c; have := hr a; simp [Memory.read] at this
  | cons c rest ih =>
    obtain ⟨a, b⟩ := c
    cases m' with
    | nil => have := hr a; simp [Memory.read] at this
    | cons c' rest' =>
      obtain ⟨a', b'⟩ := c'
      simp only [Memory.wf] at h h'
      have hab : a = a' := by
        rcases Nat.lt_trichotomy a a' with hl | he | hl
        · have := hr a
          rw [Memory.read_cons, if_pos rfl, Memory.read_cons, if_neg (by omega),
            Memory.read_of_risingFrom h' (by omega)] at this
          cases this
        · exact he
        · have := hr a'
          rw [Memory.read_cons, if_neg (by omega), Memory.read_of_risingFrom h (by omega),
            Memory.read_cons, if_pos rfl] at this
          cases this
      subst hab
      have hb : b = b' := by
        have := hr a
        simpa [Memory.read_cons] using this
      subst hb
      have hw : ∀ {r : Memory}, Memory.risingFrom a r = true → r.wf = true := by
        intro r hr'
        cases r with
        | nil => rfl
        | cons d r =>
          simp only [Memory.risingFrom, Bool.and_eq_true] at hr'
          exact hr'.2
      congr 1
      refine ih (hw h) (hw h') (fun x => ?_)
      by_cases hx : a = x
      · subst hx
        rw [Memory.read_of_risingFrom h (Nat.le_refl _), Memory.read_of_risingFrom h' (Nat.le_refl _)]
      · have := hr x
        rwa [Memory.read_cons, if_neg hx, Memory.read_cons, if_neg hx] at this

/-! ## Bytes of IN and OUT -/

theorem readIn_eq_ok {m : Memory} {a : Nat} {b : Byte} :
    readIn m a = .ok b ↔ m.read a = some b := by
  unfold readIn; split <;> simp_all

theorem readOut_eq_ok {m : Memory} {a : Nat} {b : Byte} :
    readOut m a = .ok b ↔ m.read a = some b := by
  unfold readOut; split <;> simp_all

theorem writeOut_eq_ok {cap : Word} {m m' : Memory} {a : Nat} {v : Byte} :
    writeOut cap m a v = .ok m' ↔ a < cap.toNat ∧ m' = m.write a v := by
  unfold writeOut; split <;> simp_all [eq_comm]

/-- A two-byte read is the composition of two byte reads (R41). -/
theorem readIn16_eq_ok {m : Memory} {a : Nat} {v : BitVec 16} :
    readIn16 m a = .ok v ↔
      ∃ b0 b1, m.read a = some b0 ∧ m.read (a + 1) = some b1 ∧ v = be16 b0 b1 := by
  simp only [← readIn_eq_ok]
  unfold readIn16
  cases h0 : readIn m a with
  | error f => simp
  | ok b0 => cases h1 : readIn m (a + 1) <;> simp [eq_comm]

/-- A four-byte read is the composition of four byte reads (R41). -/
theorem readIn32_eq_ok {m : Memory} {a : Nat} {v : Word} :
    readIn32 m a = .ok v ↔
      ∃ b0 b1 b2 b3, m.read a = some b0 ∧ m.read (a + 1) = some b1 ∧ m.read (a + 2) = some b2 ∧
        m.read (a + 3) = some b3 ∧ v = be32 b0 b1 b2 b3 := by
  unfold readIn32
  constructor
  · intro h
    cases h0 : readIn16 m a with
    | error f => simp [h0] at h
    | ok hi =>
      cases h1 : readIn16 m (a + 2) with
      | error f => simp [h0, h1] at h
      | ok lo =>
        obtain ⟨b0, b1, r0, r1, e0⟩ := readIn16_eq_ok.mp h0
        obtain ⟨b2, b3, r2, r3, e1⟩ := readIn16_eq_ok.mp h1
        simp only [h0, h1, Except.ok.injEq] at h
        exact ⟨b0, b1, b2, b3, r0, r1, r2, r3, by rw [← h, e0, e1]; rfl⟩
  · rintro ⟨b0, b1, b2, b3, r0, r1, r2, r3, rfl⟩
    have h0 := readIn16_eq_ok.mpr ⟨b0, b1, r0, r1, rfl⟩
    have h1 := readIn16_eq_ok.mpr ⟨b2, b3, r2, r3, rfl⟩
    simp only [h0, h1]; rfl

/-- A read of bytes answers exactly the bytes at the addresses. -/
theorem readInBytes_eq_ok {m : Memory} {a n : Nat} {bs : List Byte} :
    readInBytes m a n = .ok bs ↔ bs.length = n ∧ ∀ i < n, m.read (a + i) = bs[i]? := by
  induction n generalizing a bs with
  | zero => simp [readInBytes, eq_comm (a := ([] : List Byte))]
  | succ n ih =>
    unfold readInBytes
    constructor
    · intro h
      cases h0 : readIn m a with
      | error f => simp [h0] at h
      | ok b =>
        cases h1 : readInBytes m (a + 1) n with
        | error f => simp [h0, h1] at h
        | ok rest =>
          simp only [h0, h1, Except.ok.injEq] at h
          subst h
          obtain ⟨hl, hr⟩ := ih.mp h1
          refine ⟨by simp [hl], fun i hi => ?_⟩
          cases i with
          | zero => simpa using readIn_eq_ok.mp h0
          | succ i => simpa [Nat.add_assoc, Nat.add_comm 1 i] using hr i (by omega)
    · rintro ⟨hl, hr⟩
      cases bs with
      | nil => simp at hl
      | cons b rest =>
        have h0 : readIn m a = .ok b := readIn_eq_ok.mpr (by simpa using hr 0 (by omega))
        have h1 : readInBytes m (a + 1) n = .ok rest := ih.mpr ⟨by simpa using hl, fun i hi => by
          simpa [Nat.add_assoc, Nat.add_comm 1 i] using hr (i + 1) (by omega)⟩
        simp [h0, h1]

theorem readOutBytes_eq_ok {m : Memory} {a n : Nat} {bs : List Byte} :
    readOutBytes m a n = .ok bs ↔ bs.length = n ∧ ∀ i < n, m.read (a + i) = bs[i]? := by
  induction n generalizing a bs with
  | zero => simp [readOutBytes, eq_comm (a := ([] : List Byte))]
  | succ n ih =>
    unfold readOutBytes
    constructor
    · intro h
      cases h0 : readOut m a with
      | error f => simp [h0] at h
      | ok b =>
        cases h1 : readOutBytes m (a + 1) n with
        | error f => simp [h0, h1] at h
        | ok rest =>
          simp only [h0, h1, Except.ok.injEq] at h
          subst h
          obtain ⟨hl, hr⟩ := ih.mp h1
          refine ⟨by simp [hl], fun i hi => ?_⟩
          cases i with
          | zero => simpa using readOut_eq_ok.mp h0
          | succ i => simpa [Nat.add_assoc, Nat.add_comm 1 i] using hr i (by omega)
    · rintro ⟨hl, hr⟩
      cases bs with
      | nil => simp at hl
      | cons b rest =>
        have h0 : readOut m a = .ok b := readOut_eq_ok.mpr (by simpa using hr 0 (by omega))
        have h1 : readOutBytes m (a + 1) n = .ok rest := ih.mpr ⟨by simpa using hl, fun i hi => by
          simpa [Nat.add_assoc, Nat.add_comm 1 i] using hr (i + 1) (by omega)⟩
        simp [h0, h1]

/-! ## The copy loop -/

/-- All that a finished copy from below its destination does (R107): it keeps the canonical form
and the address space, leaves every byte outside the run alone, and each byte of the run is the
one `dst - src` before it, as it stands afterwards. -/
structure CopySpec (cap : Word) (src dst n : Nat) (out out' : Memory) : Prop where
  wf : out.wf = true → out'.wf = true
  space : (∀ c ∈ out, c.1 < cap.toNat) → ∀ c ∈ out', c.1 < cap.toNat
  below : ∀ a, a < dst → out'.read a = out.read a
  above : ∀ a, dst + n ≤ a → out'.read a = out.read a
  replay : ∀ i < n, out'.read (dst + i) = out'.read (src + i)
  written : ∀ i < n, out'.read (dst + i) ≠ none
  room : ∀ i < n, dst + i < cap.toNat

theorem copyRun_spec {cap : Word} {src dst n : Nat} {out out' : Memory} (hs : src < dst)
    (h : copyRun cap src dst n out = .ok out') : CopySpec cap src dst n out out' := by
  induction n generalizing src dst out with
  | zero =>
    simp only [copyRun, Except.ok.injEq] at h
    subst h
    exact ⟨id, id, fun _ _ => rfl, fun _ _ => rfl, nofun, nofun, nofun⟩
  | succ n ih =>
    unfold copyRun at h
    cases hv : readOut out src with
    | error f => simp [hv] at h
    | ok v =>
      cases hw : writeOut cap out dst v with
      | error f => simp [hv, hw] at h
      | ok mid =>
        simp only [hv, hw] at h
        obtain ⟨hcap, rfl⟩ := writeOut_eq_ok.mp hw
        have sp := ih (by omega) h
        have hsrc := readOut_eq_ok.mp hv
        have e1 : out'.read dst = some v := by
          rw [sp.below dst (by omega)]; simp
        have e2 : out'.read src = some v := by
          rw [sp.below src (by omega), Memory.read_write_ne _ _ (by omega), hsrc]
        refine ⟨fun w => sp.wf (Memory.wf_write _ _ w), fun w => sp.space (Memory.space_write v hcap w),
          fun a ha => ?_, fun a ha => ?_, fun i hi => ?_, fun i hi => ?_, fun i hi => ?_⟩
        · rw [sp.below a (by omega), Memory.read_write_ne _ _ (by omega)]
        · rw [sp.above a (by omega), Memory.read_write_ne _ _ (by omega)]
        · cases i with
          | zero => simp [e1, e2]
          | succ i => simpa [Nat.add_assoc, Nat.add_comm 1 i] using sp.replay i (by omega)
        · cases i with
          | zero => simp [e1]
          | succ i => simpa [Nat.add_assoc, Nat.add_comm 1 i] using sp.written i (by omega)
        · cases i with
          | zero => simpa using hcap
          | succ i => have := sp.room i (by omega); omega

/-- A copy from written bytes into existing addresses finishes. -/
theorem copyRun_finishes {cap : Word} {src dst n : Nat} {out : Memory} (hs : src < dst)
    (hw : ∀ a, src ≤ a → a < dst → out.read a ≠ none) (hc : dst + n ≤ cap.toNat) :
    ∃ out', copyRun cap src dst n out = .ok out' := by
  induction n generalizing src dst out with
  | zero => exact ⟨out, rfl⟩
  | succ n ih =>
    obtain ⟨v, hv⟩ := Option.ne_none_iff_exists'.mp (hw src (Nat.le_refl _) hs)
    have h1 : readOut out src = .ok v := readOut_eq_ok.mpr hv
    have h2 : writeOut cap out dst v = .ok (out.write dst v) :=
      writeOut_eq_ok.mpr ⟨by omega, rfl⟩
    obtain ⟨out', h3⟩ := ih (src := src + 1) (dst := dst + 1) (out := out.write dst v) (by omega)
      (fun a ha hb => by
        rw [Memory.read_write]
        split
        · simp
        · exact hw a (by omega) (by omega))
      (by omega)
    exact ⟨out', by simp only [copyRun, h1, h2, h3]⟩

end Sys2Proof.Machine
end

