-- ==== Sys2Proof/Laws/State.lean ====
section
/-! SUPPORT. What each named update leaves in each field of State, so that no proof unfolds a record
update; and that the terminal test changes two fields only. -/

namespace Sys2Proof.Machine

variable (s : State)

/-! ### raise -/

@[simp] theorem State.raise_config (e : ErrorKind) : (s.raise e).config = s.config := rfl
@[simp] theorem State.raise_inMem (e : ErrorKind) : (s.raise e).inMem = s.inMem := rfl
@[simp] theorem State.raise_inputLen (e : ErrorKind) : (s.raise e).inputLen = s.inputLen := rfl
@[simp] theorem State.raise_outMem (e : ErrorKind) : (s.raise e).outMem = s.outMem := rfl
@[simp] theorem State.raise_decodedSize (e : ErrorKind) :
    (s.raise e).decodedSize = s.decodedSize := rfl
@[simp] theorem State.raise_linkTableOffset (e : ErrorKind) :
    (s.raise e).linkTableOffset = s.linkTableOffset := rfl
@[simp] theorem State.raise_byteChunkOffset (e : ErrorKind) :
    (s.raise e).byteChunkOffset = s.byteChunkOffset := rfl
@[simp] theorem State.raise_maskCursor (e : ErrorKind) :
    (s.raise e).maskCursor = s.maskCursor := rfl
@[simp] theorem State.raise_maskWord (e : ErrorKind) : (s.raise e).maskWord = s.maskWord := rfl
@[simp] theorem State.raise_maskBitsLeft (e : ErrorKind) :
    (s.raise e).maskBitsLeft = s.maskBitsLeft := rfl
@[simp] theorem State.raise_linkCursor (e : ErrorKind) :
    (s.raise e).linkCursor = s.linkCursor := rfl
@[simp] theorem State.raise_byteChunkCursor (e : ErrorKind) :
    (s.raise e).byteChunkCursor = s.byteChunkCursor := rfl
@[simp] theorem State.raise_outputCursor (e : ErrorKind) :
    (s.raise e).outputCursor = s.outputCursor := rfl
@[simp] theorem State.raise_ctrlBit (e : ErrorKind) : (s.raise e).ctrlBit = s.ctrlBit := rfl
@[simp] theorem State.raise_fsm (e : ErrorKind) : (s.raise e).fsm = .error := rfl
@[simp] theorem State.raise_errCode (e : ErrorKind) : (s.raise e).errCode = some e := rfl
@[simp] theorem State.raise_resultLen (e : ErrorKind) : (s.raise e).resultLen = 0 := rfl
@[simp] theorem State.raise_host (e : ErrorKind) : (s.raise e).host = s.host := rfl

/-! ### acceptStart -/

@[simp] theorem State.acceptStart_config : s.acceptStart.config = s.config := rfl
@[simp] theorem State.acceptStart_inMem : s.acceptStart.inMem = s.inMem := rfl
@[simp] theorem State.acceptStart_inputLen : s.acceptStart.inputLen = s.inputLen := rfl
@[simp] theorem State.acceptStart_outMem : s.acceptStart.outMem = s.outMem := rfl
@[simp] theorem State.acceptStart_decodedSize : s.acceptStart.decodedSize = s.decodedSize := rfl
@[simp] theorem State.acceptStart_linkTableOffset :
    s.acceptStart.linkTableOffset = s.linkTableOffset := rfl
@[simp] theorem State.acceptStart_byteChunkOffset :
    s.acceptStart.byteChunkOffset = s.byteChunkOffset := rfl
@[simp] theorem State.acceptStart_maskCursor : s.acceptStart.maskCursor = s.maskCursor := rfl
@[simp] theorem State.acceptStart_maskWord : s.acceptStart.maskWord = s.maskWord := rfl
@[simp] theorem State.acceptStart_maskBitsLeft : s.acceptStart.maskBitsLeft = s.maskBitsLeft := rfl
@[simp] theorem State.acceptStart_linkCursor : s.acceptStart.linkCursor = s.linkCursor := rfl
@[simp] theorem State.acceptStart_byteChunkCursor :
    s.acceptStart.byteChunkCursor = s.byteChunkCursor := rfl
@[simp] theorem State.acceptStart_outputCursor : s.acceptStart.outputCursor = s.outputCursor := rfl
@[simp] theorem State.acceptStart_ctrlBit : s.acceptStart.ctrlBit = s.ctrlBit := rfl
@[simp] theorem State.acceptStart_fsm : s.acceptStart.fsm = .header := rfl
@[simp] theorem State.acceptStart_errCode : s.acceptStart.errCode = none := rfl
@[simp] theorem State.acceptStart_resultLen : s.acceptStart.resultLen = 0 := rfl
@[simp] theorem State.acceptStart_host : s.acceptStart.host = s.host := rfl

/-! ### hardwareReset -/

@[simp] theorem State.hardwareReset_config : s.hardwareReset.config = s.config := rfl
@[simp] theorem State.hardwareReset_inMem : s.hardwareReset.inMem = State.reset.inMem := rfl
@[simp] theorem State.hardwareReset_inputLen :
    s.hardwareReset.inputLen = State.reset.inputLen := rfl
@[simp] theorem State.hardwareReset_outMem : s.hardwareReset.outMem = State.reset.outMem := rfl
@[simp] theorem State.hardwareReset_decodedSize :
    s.hardwareReset.decodedSize = State.reset.decodedSize := rfl
@[simp] theorem State.hardwareReset_linkTableOffset :
    s.hardwareReset.linkTableOffset = State.reset.linkTableOffset := rfl
@[simp] theorem State.hardwareReset_byteChunkOffset :
    s.hardwareReset.byteChunkOffset = State.reset.byteChunkOffset := rfl
@[simp] theorem State.hardwareReset_maskCursor :
    s.hardwareReset.maskCursor = State.reset.maskCursor := rfl
@[simp] theorem State.hardwareReset_maskWord :
    s.hardwareReset.maskWord = State.reset.maskWord := rfl
@[simp] theorem State.hardwareReset_maskBitsLeft :
    s.hardwareReset.maskBitsLeft = State.reset.maskBitsLeft := rfl
@[simp] theorem State.hardwareReset_linkCursor :
    s.hardwareReset.linkCursor = State.reset.linkCursor := rfl
@[simp] theorem State.hardwareReset_byteChunkCursor :
    s.hardwareReset.byteChunkCursor = State.reset.byteChunkCursor := rfl
@[simp] theorem State.hardwareReset_outputCursor :
    s.hardwareReset.outputCursor = State.reset.outputCursor := rfl
@[simp] theorem State.hardwareReset_ctrlBit : s.hardwareReset.ctrlBit = State.reset.ctrlBit := rfl
@[simp] theorem State.hardwareReset_fsm : s.hardwareReset.fsm = State.reset.fsm := rfl
@[simp] theorem State.hardwareReset_errCode : s.hardwareReset.errCode = State.reset.errCode := rfl
@[simp] theorem State.hardwareReset_resultLen :
    s.hardwareReset.resultLen = State.reset.resultLen := rfl
@[simp] theorem State.hardwareReset_host : s.hardwareReset.host = s.host := rfl

/-! ### goto -/

@[simp] theorem State.goto_config (f : Fsm) : (s.goto f).config = s.config := rfl
@[simp] theorem State.goto_inMem (f : Fsm) : (s.goto f).inMem = s.inMem := rfl
@[simp] theorem State.goto_inputLen (f : Fsm) : (s.goto f).inputLen = s.inputLen := rfl
@[simp] theorem State.goto_outMem (f : Fsm) : (s.goto f).outMem = s.outMem := rfl
@[simp] theorem State.goto_decodedSize (f : Fsm) : (s.goto f).decodedSize = s.decodedSize := rfl
@[simp] theorem State.goto_linkTableOffset (f : Fsm) :
    (s.goto f).linkTableOffset = s.linkTableOffset := rfl
@[simp] theorem State.goto_byteChunkOffset (f : Fsm) :
    (s.goto f).byteChunkOffset = s.byteChunkOffset := rfl
@[simp] theorem State.goto_maskCursor (f : Fsm) : (s.goto f).maskCursor = s.maskCursor := rfl
@[simp] theorem State.goto_maskWord (f : Fsm) : (s.goto f).maskWord = s.maskWord := rfl
@[simp] theorem State.goto_maskBitsLeft (f : Fsm) : (s.goto f).maskBitsLeft = s.maskBitsLeft := rfl
@[simp] theorem State.goto_linkCursor (f : Fsm) : (s.goto f).linkCursor = s.linkCursor := rfl
@[simp] theorem State.goto_byteChunkCursor (f : Fsm) :
    (s.goto f).byteChunkCursor = s.byteChunkCursor := rfl
@[simp] theorem State.goto_outputCursor (f : Fsm) : (s.goto f).outputCursor = s.outputCursor := rfl
@[simp] theorem State.goto_ctrlBit (f : Fsm) : (s.goto f).ctrlBit = s.ctrlBit := rfl
@[simp] theorem State.goto_fsm (f : Fsm) : (s.goto f).fsm = f := rfl
@[simp] theorem State.goto_errCode (f : Fsm) : (s.goto f).errCode = s.errCode := rfl
@[simp] theorem State.goto_resultLen (f : Fsm) : (s.goto f).resultLen = s.resultLen := rfl
@[simp] theorem State.goto_host (f : Fsm) : (s.goto f).host = s.host := rfl

/-! ### enterDone -/

@[simp] theorem State.enterDone_config : s.enterDone.config = s.config := rfl
@[simp] theorem State.enterDone_inMem : s.enterDone.inMem = s.inMem := rfl
@[simp] theorem State.enterDone_inputLen : s.enterDone.inputLen = s.inputLen := rfl
@[simp] theorem State.enterDone_outMem : s.enterDone.outMem = s.outMem := rfl
@[simp] theorem State.enterDone_decodedSize : s.enterDone.decodedSize = s.decodedSize := rfl
@[simp] theorem State.enterDone_linkTableOffset :
    s.enterDone.linkTableOffset = s.linkTableOffset := rfl
@[simp] theorem State.enterDone_byteChunkOffset :
    s.enterDone.byteChunkOffset = s.byteChunkOffset := rfl
@[simp] theorem State.enterDone_maskCursor : s.enterDone.maskCursor = s.maskCursor := rfl
@[simp] theorem State.enterDone_maskWord : s.enterDone.maskWord = s.maskWord := rfl
@[simp] theorem State.enterDone_maskBitsLeft : s.enterDone.maskBitsLeft = s.maskBitsLeft := rfl
@[simp] theorem State.enterDone_linkCursor : s.enterDone.linkCursor = s.linkCursor := rfl
@[simp] theorem State.enterDone_byteChunkCursor :
    s.enterDone.byteChunkCursor = s.byteChunkCursor := rfl
@[simp] theorem State.enterDone_outputCursor : s.enterDone.outputCursor = s.outputCursor := rfl
@[simp] theorem State.enterDone_ctrlBit : s.enterDone.ctrlBit = s.ctrlBit := rfl
@[simp] theorem State.enterDone_fsm : s.enterDone.fsm = .done := rfl
@[simp] theorem State.enterDone_errCode : s.enterDone.errCode = s.errCode := rfl
@[simp] theorem State.enterDone_resultLen : s.enterDone.resultLen = s.decodedSize := rfl
@[simp] theorem State.enterDone_host : s.enterDone.host = s.host := rfl

/-! ### setHeader -/

@[simp] theorem State.setHeader_config (size link chunk : Word) :
    (s.setHeader size link chunk).config = s.config := rfl
@[simp] theorem State.setHeader_inMem (size link chunk : Word) :
    (s.setHeader size link chunk).inMem = s.inMem := rfl
@[simp] theorem State.setHeader_inputLen (size link chunk : Word) :
    (s.setHeader size link chunk).inputLen = s.inputLen := rfl
@[simp] theorem State.setHeader_outMem (size link chunk : Word) :
    (s.setHeader size link chunk).outMem = s.outMem := rfl
@[simp] theorem State.setHeader_decodedSize (size link chunk : Word) :
    (s.setHeader size link chunk).decodedSize = size := rfl
@[simp] theorem State.setHeader_linkTableOffset (size link chunk : Word) :
    (s.setHeader size link chunk).linkTableOffset = link := rfl
@[simp] theorem State.setHeader_byteChunkOffset (size link chunk : Word) :
    (s.setHeader size link chunk).byteChunkOffset = chunk := rfl
@[simp] theorem State.setHeader_maskCursor (size link chunk : Word) :
    (s.setHeader size link chunk).maskCursor = s.maskCursor := rfl
@[simp] theorem State.setHeader_maskWord (size link chunk : Word) :
    (s.setHeader size link chunk).maskWord = s.maskWord := rfl
@[simp] theorem State.setHeader_maskBitsLeft (size link chunk : Word) :
    (s.setHeader size link chunk).maskBitsLeft = s.maskBitsLeft := rfl
@[simp] theorem State.setHeader_linkCursor (size link chunk : Word) :
    (s.setHeader size link chunk).linkCursor = s.linkCursor := rfl
@[simp] theorem State.setHeader_byteChunkCursor (size link chunk : Word) :
    (s.setHeader size link chunk).byteChunkCursor = s.byteChunkCursor := rfl
@[simp] theorem State.setHeader_outputCursor (size link chunk : Word) :
    (s.setHeader size link chunk).outputCursor = s.outputCursor := rfl
@[simp] theorem State.setHeader_ctrlBit (size link chunk : Word) :
    (s.setHeader size link chunk).ctrlBit = s.ctrlBit := rfl
@[simp] theorem State.setHeader_fsm (size link chunk : Word) :
    (s.setHeader size link chunk).fsm = s.fsm := rfl
@[simp] theorem State.setHeader_errCode (size link chunk : Word) :
    (s.setHeader size link chunk).errCode = s.errCode := rfl
@[simp] theorem State.setHeader_resultLen (size link chunk : Word) :
    (s.setHeader size link chunk).resultLen = s.resultLen := rfl
@[simp] theorem State.setHeader_host (size link chunk : Word) :
    (s.setHeader size link chunk).host = s.host := rfl

/-! ### initCall -/

@[simp] theorem State.initCall_config : s.initCall.config = s.config := rfl
@[simp] theorem State.initCall_inMem : s.initCall.inMem = s.inMem := rfl
@[simp] theorem State.initCall_inputLen : s.initCall.inputLen = s.inputLen := rfl
@[simp] theorem State.initCall_outMem : s.initCall.outMem = s.outMem := rfl
@[simp] theorem State.initCall_decodedSize : s.initCall.decodedSize = s.decodedSize := rfl
@[simp] theorem State.initCall_linkTableOffset :
    s.initCall.linkTableOffset = s.linkTableOffset := rfl
@[simp] theorem State.initCall_byteChunkOffset :
    s.initCall.byteChunkOffset = s.byteChunkOffset := rfl
@[simp] theorem State.initCall_maskCursor : s.initCall.maskCursor = 16 := rfl
@[simp] theorem State.initCall_maskWord : s.initCall.maskWord = 0 := rfl
@[simp] theorem State.initCall_maskBitsLeft : s.initCall.maskBitsLeft = 0 := rfl
@[simp] theorem State.initCall_linkCursor : s.initCall.linkCursor = s.linkTableOffset := rfl
@[simp] theorem State.initCall_byteChunkCursor :
    s.initCall.byteChunkCursor = s.byteChunkOffset := rfl
@[simp] theorem State.initCall_outputCursor : s.initCall.outputCursor = 0 := rfl
@[simp] theorem State.initCall_ctrlBit : s.initCall.ctrlBit = false := rfl
@[simp] theorem State.initCall_fsm : s.initCall.fsm = s.fsm := rfl
@[simp] theorem State.initCall_errCode : s.initCall.errCode = s.errCode := rfl
@[simp] theorem State.initCall_resultLen : s.initCall.resultLen = s.resultLen := rfl
@[simp] theorem State.initCall_host : s.initCall.host = s.host := rfl

/-! ### loadMask -/

@[simp] theorem State.loadMask_config (w : Word) : (s.loadMask w).config = s.config := rfl
@[simp] theorem State.loadMask_inMem (w : Word) : (s.loadMask w).inMem = s.inMem := rfl
@[simp] theorem State.loadMask_inputLen (w : Word) : (s.loadMask w).inputLen = s.inputLen := rfl
@[simp] theorem State.loadMask_outMem (w : Word) : (s.loadMask w).outMem = s.outMem := rfl
@[simp] theorem State.loadMask_decodedSize (w : Word) :
    (s.loadMask w).decodedSize = s.decodedSize := rfl
@[simp] theorem State.loadMask_linkTableOffset (w : Word) :
    (s.loadMask w).linkTableOffset = s.linkTableOffset := rfl
@[simp] theorem State.loadMask_byteChunkOffset (w : Word) :
    (s.loadMask w).byteChunkOffset = s.byteChunkOffset := rfl
@[simp] theorem State.loadMask_maskCursor (w : Word) :
    (s.loadMask w).maskCursor = s.maskCursor + 4 := rfl
@[simp] theorem State.loadMask_maskWord (w : Word) : (s.loadMask w).maskWord = w := rfl
@[simp] theorem State.loadMask_maskBitsLeft (w : Word) : (s.loadMask w).maskBitsLeft = 32 := rfl
@[simp] theorem State.loadMask_linkCursor (w : Word) :
    (s.loadMask w).linkCursor = s.linkCursor := rfl
@[simp] theorem State.loadMask_byteChunkCursor (w : Word) :
    (s.loadMask w).byteChunkCursor = s.byteChunkCursor := rfl
@[simp] theorem State.loadMask_outputCursor (w : Word) :
    (s.loadMask w).outputCursor = s.outputCursor := rfl
@[simp] theorem State.loadMask_ctrlBit (w : Word) : (s.loadMask w).ctrlBit = s.ctrlBit := rfl
@[simp] theorem State.loadMask_fsm (w : Word) : (s.loadMask w).fsm = s.fsm := rfl
@[simp] theorem State.loadMask_errCode (w : Word) : (s.loadMask w).errCode = s.errCode := rfl
@[simp] theorem State.loadMask_resultLen (w : Word) : (s.loadMask w).resultLen = s.resultLen := rfl
@[simp] theorem State.loadMask_host (w : Word) : (s.loadMask w).host = s.host := rfl

/-! ### shiftMask -/

@[simp] theorem State.shiftMask_config : s.shiftMask.config = s.config := rfl
@[simp] theorem State.shiftMask_inMem : s.shiftMask.inMem = s.inMem := rfl
@[simp] theorem State.shiftMask_inputLen : s.shiftMask.inputLen = s.inputLen := rfl
@[simp] theorem State.shiftMask_outMem : s.shiftMask.outMem = s.outMem := rfl
@[simp] theorem State.shiftMask_decodedSize : s.shiftMask.decodedSize = s.decodedSize := rfl
@[simp] theorem State.shiftMask_linkTableOffset :
    s.shiftMask.linkTableOffset = s.linkTableOffset := rfl
@[simp] theorem State.shiftMask_byteChunkOffset :
    s.shiftMask.byteChunkOffset = s.byteChunkOffset := rfl
@[simp] theorem State.shiftMask_maskCursor : s.shiftMask.maskCursor = s.maskCursor := rfl
@[simp] theorem State.shiftMask_maskWord : s.shiftMask.maskWord = s.maskWord <<< 1 := rfl
@[simp] theorem State.shiftMask_maskBitsLeft : s.shiftMask.maskBitsLeft = s.maskBitsLeft - 1 := rfl
@[simp] theorem State.shiftMask_linkCursor : s.shiftMask.linkCursor = s.linkCursor := rfl
@[simp] theorem State.shiftMask_byteChunkCursor :
    s.shiftMask.byteChunkCursor = s.byteChunkCursor := rfl
@[simp] theorem State.shiftMask_outputCursor : s.shiftMask.outputCursor = s.outputCursor := rfl
@[simp] theorem State.shiftMask_ctrlBit : s.shiftMask.ctrlBit = s.ctrlBit := rfl
@[simp] theorem State.shiftMask_fsm : s.shiftMask.fsm = s.fsm := rfl
@[simp] theorem State.shiftMask_errCode : s.shiftMask.errCode = s.errCode := rfl
@[simp] theorem State.shiftMask_resultLen : s.shiftMask.resultLen = s.resultLen := rfl
@[simp] theorem State.shiftMask_host : s.shiftMask.host = s.host := rfl

/-! ### latch -/

@[simp] theorem State.latch_config (c : Bool) : (s.latch c).config = s.config := rfl
@[simp] theorem State.latch_inMem (c : Bool) : (s.latch c).inMem = s.inMem := rfl
@[simp] theorem State.latch_inputLen (c : Bool) : (s.latch c).inputLen = s.inputLen := rfl
@[simp] theorem State.latch_outMem (c : Bool) : (s.latch c).outMem = s.outMem := rfl
@[simp] theorem State.latch_decodedSize (c : Bool) : (s.latch c).decodedSize = s.decodedSize := rfl
@[simp] theorem State.latch_linkTableOffset (c : Bool) :
    (s.latch c).linkTableOffset = s.linkTableOffset := rfl
@[simp] theorem State.latch_byteChunkOffset (c : Bool) :
    (s.latch c).byteChunkOffset = s.byteChunkOffset := rfl
@[simp] theorem State.latch_maskCursor (c : Bool) : (s.latch c).maskCursor = s.maskCursor := rfl
@[simp] theorem State.latch_maskWord (c : Bool) : (s.latch c).maskWord = s.maskWord := rfl
@[simp] theorem State.latch_maskBitsLeft (c : Bool) :
    (s.latch c).maskBitsLeft = s.maskBitsLeft := rfl
@[simp] theorem State.latch_linkCursor (c : Bool) : (s.latch c).linkCursor = s.linkCursor := rfl
@[simp] theorem State.latch_byteChunkCursor (c : Bool) :
    (s.latch c).byteChunkCursor = s.byteChunkCursor := rfl
@[simp] theorem State.latch_outputCursor (c : Bool) :
    (s.latch c).outputCursor = s.outputCursor := rfl
@[simp] theorem State.latch_ctrlBit (c : Bool) : (s.latch c).ctrlBit = c := rfl
@[simp] theorem State.latch_fsm (c : Bool) : (s.latch c).fsm = s.fsm := rfl
@[simp] theorem State.latch_errCode (c : Bool) : (s.latch c).errCode = s.errCode := rfl
@[simp] theorem State.latch_resultLen (c : Bool) : (s.latch c).resultLen = s.resultLen := rfl
@[simp] theorem State.latch_host (c : Bool) : (s.latch c).host = s.host := rfl

/-! ### advanceLink -/

@[simp] theorem State.advanceLink_config : s.advanceLink.config = s.config := rfl
@[simp] theorem State.advanceLink_inMem : s.advanceLink.inMem = s.inMem := rfl
@[simp] theorem State.advanceLink_inputLen : s.advanceLink.inputLen = s.inputLen := rfl
@[simp] theorem State.advanceLink_outMem : s.advanceLink.outMem = s.outMem := rfl
@[simp] theorem State.advanceLink_decodedSize : s.advanceLink.decodedSize = s.decodedSize := rfl
@[simp] theorem State.advanceLink_linkTableOffset :
    s.advanceLink.linkTableOffset = s.linkTableOffset := rfl
@[simp] theorem State.advanceLink_byteChunkOffset :
    s.advanceLink.byteChunkOffset = s.byteChunkOffset := rfl
@[simp] theorem State.advanceLink_maskCursor : s.advanceLink.maskCursor = s.maskCursor := rfl
@[simp] theorem State.advanceLink_maskWord : s.advanceLink.maskWord = s.maskWord := rfl
@[simp] theorem State.advanceLink_maskBitsLeft : s.advanceLink.maskBitsLeft = s.maskBitsLeft := rfl
@[simp] theorem State.advanceLink_linkCursor : s.advanceLink.linkCursor = s.linkCursor + 2 := rfl
@[simp] theorem State.advanceLink_byteChunkCursor :
    s.advanceLink.byteChunkCursor = s.byteChunkCursor := rfl
@[simp] theorem State.advanceLink_outputCursor : s.advanceLink.outputCursor = s.outputCursor := rfl
@[simp] theorem State.advanceLink_ctrlBit : s.advanceLink.ctrlBit = s.ctrlBit := rfl
@[simp] theorem State.advanceLink_fsm : s.advanceLink.fsm = s.fsm := rfl
@[simp] theorem State.advanceLink_errCode : s.advanceLink.errCode = s.errCode := rfl
@[simp] theorem State.advanceLink_resultLen : s.advanceLink.resultLen = s.resultLen := rfl
@[simp] theorem State.advanceLink_host : s.advanceLink.host = s.host := rfl

/-! ### advanceChunk -/

@[simp] theorem State.advanceChunk_config : s.advanceChunk.config = s.config := rfl
@[simp] theorem State.advanceChunk_inMem : s.advanceChunk.inMem = s.inMem := rfl
@[simp] theorem State.advanceChunk_inputLen : s.advanceChunk.inputLen = s.inputLen := rfl
@[simp] theorem State.advanceChunk_outMem : s.advanceChunk.outMem = s.outMem := rfl
@[simp] theorem State.advanceChunk_decodedSize : s.advanceChunk.decodedSize = s.decodedSize := rfl
@[simp] theorem State.advanceChunk_linkTableOffset :
    s.advanceChunk.linkTableOffset = s.linkTableOffset := rfl
@[simp] theorem State.advanceChunk_byteChunkOffset :
    s.advanceChunk.byteChunkOffset = s.byteChunkOffset := rfl
@[simp] theorem State.advanceChunk_maskCursor : s.advanceChunk.maskCursor = s.maskCursor := rfl
@[simp] theorem State.advanceChunk_maskWord : s.advanceChunk.maskWord = s.maskWord := rfl
@[simp] theorem State.advanceChunk_maskBitsLeft :
    s.advanceChunk.maskBitsLeft = s.maskBitsLeft := rfl
@[simp] theorem State.advanceChunk_linkCursor : s.advanceChunk.linkCursor = s.linkCursor := rfl
@[simp] theorem State.advanceChunk_byteChunkCursor :
    s.advanceChunk.byteChunkCursor = s.byteChunkCursor + 1 := rfl
@[simp] theorem State.advanceChunk_outputCursor :
    s.advanceChunk.outputCursor = s.outputCursor := rfl
@[simp] theorem State.advanceChunk_ctrlBit : s.advanceChunk.ctrlBit = s.ctrlBit := rfl
@[simp] theorem State.advanceChunk_fsm : s.advanceChunk.fsm = s.fsm := rfl
@[simp] theorem State.advanceChunk_errCode : s.advanceChunk.errCode = s.errCode := rfl
@[simp] theorem State.advanceChunk_resultLen : s.advanceChunk.resultLen = s.resultLen := rfl
@[simp] theorem State.advanceChunk_host : s.advanceChunk.host = s.host := rfl

/-! ### appended -/

@[simp] theorem State.appended_config (out : Memory) (n : Nat) :
    (s.appended out n).config = s.config := rfl
@[simp] theorem State.appended_inMem (out : Memory) (n : Nat) :
    (s.appended out n).inMem = s.inMem := rfl
@[simp] theorem State.appended_inputLen (out : Memory) (n : Nat) :
    (s.appended out n).inputLen = s.inputLen := rfl
@[simp] theorem State.appended_outMem (out : Memory) (n : Nat) :
    (s.appended out n).outMem = out := rfl
@[simp] theorem State.appended_decodedSize (out : Memory) (n : Nat) :
    (s.appended out n).decodedSize = s.decodedSize := rfl
@[simp] theorem State.appended_linkTableOffset (out : Memory) (n : Nat) :
    (s.appended out n).linkTableOffset = s.linkTableOffset := rfl
@[simp] theorem State.appended_byteChunkOffset (out : Memory) (n : Nat) :
    (s.appended out n).byteChunkOffset = s.byteChunkOffset := rfl
@[simp] theorem State.appended_maskCursor (out : Memory) (n : Nat) :
    (s.appended out n).maskCursor = s.maskCursor := rfl
@[simp] theorem State.appended_maskWord (out : Memory) (n : Nat) :
    (s.appended out n).maskWord = s.maskWord := rfl
@[simp] theorem State.appended_maskBitsLeft (out : Memory) (n : Nat) :
    (s.appended out n).maskBitsLeft = s.maskBitsLeft := rfl
@[simp] theorem State.appended_linkCursor (out : Memory) (n : Nat) :
    (s.appended out n).linkCursor = s.linkCursor := rfl
@[simp] theorem State.appended_byteChunkCursor (out : Memory) (n : Nat) :
    (s.appended out n).byteChunkCursor = s.byteChunkCursor := rfl
@[simp] theorem State.appended_outputCursor (out : Memory) (n : Nat) :
    (s.appended out n).outputCursor = s.outputCursor + BitVec.ofNat 32 n := rfl
@[simp] theorem State.appended_ctrlBit (out : Memory) (n : Nat) :
    (s.appended out n).ctrlBit = s.ctrlBit := rfl
@[simp] theorem State.appended_fsm (out : Memory) (n : Nat) : (s.appended out n).fsm = s.fsm := rfl
@[simp] theorem State.appended_errCode (out : Memory) (n : Nat) :
    (s.appended out n).errCode = s.errCode := rfl
@[simp] theorem State.appended_resultLen (out : Memory) (n : Nat) :
    (s.appended out n).resultLen = s.resultLen := rfl
@[simp] theorem State.appended_host (out : Memory) (n : Nat) :
    (s.appended out n).host = s.host := rfl

/-! ### loadIn -/

@[simp] theorem State.loadIn_config (a : Word) (b : Byte) : (s.loadIn a b).config = s.config := rfl
@[simp] theorem State.loadIn_inMem (a : Word) (b : Byte) :
    (s.loadIn a b).inMem = s.inMem.write a.toNat b := rfl
@[simp] theorem State.loadIn_inputLen (a : Word) (b : Byte) :
    (s.loadIn a b).inputLen = s.inputLen := rfl
@[simp] theorem State.loadIn_outMem (a : Word) (b : Byte) : (s.loadIn a b).outMem = s.outMem := rfl
@[simp] theorem State.loadIn_decodedSize (a : Word) (b : Byte) :
    (s.loadIn a b).decodedSize = s.decodedSize := rfl
@[simp] theorem State.loadIn_linkTableOffset (a : Word) (b : Byte) :
    (s.loadIn a b).linkTableOffset = s.linkTableOffset := rfl
@[simp] theorem State.loadIn_byteChunkOffset (a : Word) (b : Byte) :
    (s.loadIn a b).byteChunkOffset = s.byteChunkOffset := rfl
@[simp] theorem State.loadIn_maskCursor (a : Word) (b : Byte) :
    (s.loadIn a b).maskCursor = s.maskCursor := rfl
@[simp] theorem State.loadIn_maskWord (a : Word) (b : Byte) :
    (s.loadIn a b).maskWord = s.maskWord := rfl
@[simp] theorem State.loadIn_maskBitsLeft (a : Word) (b : Byte) :
    (s.loadIn a b).maskBitsLeft = s.maskBitsLeft := rfl
@[simp] theorem State.loadIn_linkCursor (a : Word) (b : Byte) :
    (s.loadIn a b).linkCursor = s.linkCursor := rfl
@[simp] theorem State.loadIn_byteChunkCursor (a : Word) (b : Byte) :
    (s.loadIn a b).byteChunkCursor = s.byteChunkCursor := rfl
@[simp] theorem State.loadIn_outputCursor (a : Word) (b : Byte) :
    (s.loadIn a b).outputCursor = s.outputCursor := rfl
@[simp] theorem State.loadIn_ctrlBit (a : Word) (b : Byte) :
    (s.loadIn a b).ctrlBit = s.ctrlBit := rfl
@[simp] theorem State.loadIn_fsm (a : Word) (b : Byte) : (s.loadIn a b).fsm = s.fsm := rfl
@[simp] theorem State.loadIn_errCode (a : Word) (b : Byte) :
    (s.loadIn a b).errCode = s.errCode := rfl
@[simp] theorem State.loadIn_resultLen (a : Word) (b : Byte) :
    (s.loadIn a b).resultLen = s.resultLen := rfl
@[simp] theorem State.loadIn_host (a : Word) (b : Byte) : (s.loadIn a b).host = s.host := rfl

/-! ### setInputLen -/

@[simp] theorem State.setInputLen_config (len : Word) : (s.setInputLen len).config = s.config := rfl
@[simp] theorem State.setInputLen_inMem (len : Word) : (s.setInputLen len).inMem = s.inMem := rfl
@[simp] theorem State.setInputLen_inputLen (len : Word) : (s.setInputLen len).inputLen = len := rfl
@[simp] theorem State.setInputLen_outMem (len : Word) : (s.setInputLen len).outMem = s.outMem := rfl
@[simp] theorem State.setInputLen_decodedSize (len : Word) :
    (s.setInputLen len).decodedSize = s.decodedSize := rfl
@[simp] theorem State.setInputLen_linkTableOffset (len : Word) :
    (s.setInputLen len).linkTableOffset = s.linkTableOffset := rfl
@[simp] theorem State.setInputLen_byteChunkOffset (len : Word) :
    (s.setInputLen len).byteChunkOffset = s.byteChunkOffset := rfl
@[simp] theorem State.setInputLen_maskCursor (len : Word) :
    (s.setInputLen len).maskCursor = s.maskCursor := rfl
@[simp] theorem State.setInputLen_maskWord (len : Word) :
    (s.setInputLen len).maskWord = s.maskWord := rfl
@[simp] theorem State.setInputLen_maskBitsLeft (len : Word) :
    (s.setInputLen len).maskBitsLeft = s.maskBitsLeft := rfl
@[simp] theorem State.setInputLen_linkCursor (len : Word) :
    (s.setInputLen len).linkCursor = s.linkCursor := rfl
@[simp] theorem State.setInputLen_byteChunkCursor (len : Word) :
    (s.setInputLen len).byteChunkCursor = s.byteChunkCursor := rfl
@[simp] theorem State.setInputLen_outputCursor (len : Word) :
    (s.setInputLen len).outputCursor = s.outputCursor := rfl
@[simp] theorem State.setInputLen_ctrlBit (len : Word) :
    (s.setInputLen len).ctrlBit = s.ctrlBit := rfl
@[simp] theorem State.setInputLen_fsm (len : Word) : (s.setInputLen len).fsm = s.fsm := rfl
@[simp] theorem State.setInputLen_errCode (len : Word) :
    (s.setInputLen len).errCode = s.errCode := rfl
@[simp] theorem State.setInputLen_resultLen (len : Word) :
    (s.setInputLen len).resultLen = s.resultLen := rfl
@[simp] theorem State.setInputLen_host (len : Word) : (s.setInputLen len).host = s.host := rfl

/-! ### setMoves -/

@[simp] theorem State.setMoves_config (ms : List HostMove) :
    (s.setMoves ms).config = s.config := rfl
@[simp] theorem State.setMoves_inMem (ms : List HostMove) : (s.setMoves ms).inMem = s.inMem := rfl
@[simp] theorem State.setMoves_inputLen (ms : List HostMove) :
    (s.setMoves ms).inputLen = s.inputLen := rfl
@[simp] theorem State.setMoves_outMem (ms : List HostMove) :
    (s.setMoves ms).outMem = s.outMem := rfl
@[simp] theorem State.setMoves_decodedSize (ms : List HostMove) :
    (s.setMoves ms).decodedSize = s.decodedSize := rfl
@[simp] theorem State.setMoves_linkTableOffset (ms : List HostMove) :
    (s.setMoves ms).linkTableOffset = s.linkTableOffset := rfl
@[simp] theorem State.setMoves_byteChunkOffset (ms : List HostMove) :
    (s.setMoves ms).byteChunkOffset = s.byteChunkOffset := rfl
@[simp] theorem State.setMoves_maskCursor (ms : List HostMove) :
    (s.setMoves ms).maskCursor = s.maskCursor := rfl
@[simp] theorem State.setMoves_maskWord (ms : List HostMove) :
    (s.setMoves ms).maskWord = s.maskWord := rfl
@[simp] theorem State.setMoves_maskBitsLeft (ms : List HostMove) :
    (s.setMoves ms).maskBitsLeft = s.maskBitsLeft := rfl
@[simp] theorem State.setMoves_linkCursor (ms : List HostMove) :
    (s.setMoves ms).linkCursor = s.linkCursor := rfl
@[simp] theorem State.setMoves_byteChunkCursor (ms : List HostMove) :
    (s.setMoves ms).byteChunkCursor = s.byteChunkCursor := rfl
@[simp] theorem State.setMoves_outputCursor (ms : List HostMove) :
    (s.setMoves ms).outputCursor = s.outputCursor := rfl
@[simp] theorem State.setMoves_ctrlBit (ms : List HostMove) :
    (s.setMoves ms).ctrlBit = s.ctrlBit := rfl
@[simp] theorem State.setMoves_fsm (ms : List HostMove) : (s.setMoves ms).fsm = s.fsm := rfl
@[simp] theorem State.setMoves_errCode (ms : List HostMove) :
    (s.setMoves ms).errCode = s.errCode := rfl
@[simp] theorem State.setMoves_resultLen (ms : List HostMove) :
    (s.setMoves ms).resultLen = s.resultLen := rfl
@[simp] theorem State.setMoves_host (ms : List HostMove) :
    (s.setMoves ms).host = ⟨ms, s.host.reading⟩ := rfl

/-! ### answer -/

@[simp] theorem State.answer_config (r : HostReading) : (s.answer r).config = s.config := rfl
@[simp] theorem State.answer_inMem (r : HostReading) : (s.answer r).inMem = s.inMem := rfl
@[simp] theorem State.answer_inputLen (r : HostReading) : (s.answer r).inputLen = s.inputLen := rfl
@[simp] theorem State.answer_outMem (r : HostReading) : (s.answer r).outMem = s.outMem := rfl
@[simp] theorem State.answer_decodedSize (r : HostReading) :
    (s.answer r).decodedSize = s.decodedSize := rfl
@[simp] theorem State.answer_linkTableOffset (r : HostReading) :
    (s.answer r).linkTableOffset = s.linkTableOffset := rfl
@[simp] theorem State.answer_byteChunkOffset (r : HostReading) :
    (s.answer r).byteChunkOffset = s.byteChunkOffset := rfl
@[simp] theorem State.answer_maskCursor (r : HostReading) :
    (s.answer r).maskCursor = s.maskCursor := rfl
@[simp] theorem State.answer_maskWord (r : HostReading) : (s.answer r).maskWord = s.maskWord := rfl
@[simp] theorem State.answer_maskBitsLeft (r : HostReading) :
    (s.answer r).maskBitsLeft = s.maskBitsLeft := rfl
@[simp] theorem State.answer_linkCursor (r : HostReading) :
    (s.answer r).linkCursor = s.linkCursor := rfl
@[simp] theorem State.answer_byteChunkCursor (r : HostReading) :
    (s.answer r).byteChunkCursor = s.byteChunkCursor := rfl
@[simp] theorem State.answer_outputCursor (r : HostReading) :
    (s.answer r).outputCursor = s.outputCursor := rfl
@[simp] theorem State.answer_ctrlBit (r : HostReading) : (s.answer r).ctrlBit = s.ctrlBit := rfl
@[simp] theorem State.answer_fsm (r : HostReading) : (s.answer r).fsm = s.fsm := rfl
@[simp] theorem State.answer_errCode (r : HostReading) : (s.answer r).errCode = s.errCode := rfl
@[simp] theorem State.answer_resultLen (r : HostReading) :
    (s.answer r).resultLen = s.resultLen := rfl
@[simp] theorem State.answer_host (r : HostReading) :
    (s.answer r).host = ⟨s.host.moves, some r⟩ := rfl

/-! ### The terminal test -/

@[simp] theorem State.terminalTest_config : s.terminalTest.config = s.config := by
  unfold State.terminalTest; split <;> rfl
@[simp] theorem State.terminalTest_inMem : s.terminalTest.inMem = s.inMem := by
  unfold State.terminalTest; split <;> rfl
@[simp] theorem State.terminalTest_inputLen : s.terminalTest.inputLen = s.inputLen := by
  unfold State.terminalTest; split <;> rfl
@[simp] theorem State.terminalTest_outMem : s.terminalTest.outMem = s.outMem := by
  unfold State.terminalTest; split <;> rfl
@[simp] theorem State.terminalTest_decodedSize : s.terminalTest.decodedSize = s.decodedSize := by
  unfold State.terminalTest; split <;> rfl
@[simp] theorem State.terminalTest_linkTableOffset : s.terminalTest.linkTableOffset = s.linkTableOffset := by
  unfold State.terminalTest; split <;> rfl
@[simp] theorem State.terminalTest_byteChunkOffset : s.terminalTest.byteChunkOffset = s.byteChunkOffset := by
  unfold State.terminalTest; split <;> rfl
@[simp] theorem State.terminalTest_maskCursor : s.terminalTest.maskCursor = s.maskCursor := by
  unfold State.terminalTest; split <;> rfl
@[simp] theorem State.terminalTest_maskWord : s.terminalTest.maskWord = s.maskWord := by
  unfold State.terminalTest; split <;> rfl
@[simp] theorem State.terminalTest_maskBitsLeft : s.terminalTest.maskBitsLeft = s.maskBitsLeft := by
  unfold State.terminalTest; split <;> rfl
@[simp] theorem State.terminalTest_linkCursor : s.terminalTest.linkCursor = s.linkCursor := by
  unfold State.terminalTest; split <;> rfl
@[simp] theorem State.terminalTest_byteChunkCursor : s.terminalTest.byteChunkCursor = s.byteChunkCursor := by
  unfold State.terminalTest; split <;> rfl
@[simp] theorem State.terminalTest_outputCursor : s.terminalTest.outputCursor = s.outputCursor := by
  unfold State.terminalTest; split <;> rfl
@[simp] theorem State.terminalTest_ctrlBit : s.terminalTest.ctrlBit = s.ctrlBit := by
  unfold State.terminalTest; split <;> rfl
@[simp] theorem State.terminalTest_errCode : s.terminalTest.errCode = s.errCode := by
  unfold State.terminalTest; split <;> rfl
@[simp] theorem State.terminalTest_host : s.terminalTest.host = s.host := by
  unfold State.terminalTest; split <;> rfl

/-- The call is over: DONE, with the result length (R128). -/
theorem State.terminalTest_done {s : State} (h : s.decodedSize.toNat ≤ s.outputCursor.toNat) :
    s.terminalTest = s.enterDone := if_pos h

/-- More bytes are owed: back to AWAIT_MASK_BIT (R128). -/
theorem State.terminalTest_more {s : State} (h : s.outputCursor.toNat < s.decodedSize.toNat) :
    s.terminalTest = s.goto .awaitMaskBit := if_neg (Nat.not_le.mpr h)

/-! ### The flags and the parts of a step -/

/-- `busy` is a function of the state-machine register alone (R20). -/
theorem State.busy_of_fsm {s t : State} (h : s.fsm = t.fsm) : s.busy = t.busy := by
  unfold State.busy; rw [h]

@[simp] theorem Res.bind_ok {α β : Type} (a : α) (s : State) (k : α → State → Res β) :
    (Res.ok a s).bind k = k a s := rfl
@[simp] theorem Res.bind_raised {α β : Type} (e : ErrorKind) (s : State) (k : α → State → Res β) :
    (Res.raised e s : Res α).bind k = .raised e s := rfl
@[simp] theorem Res.bind_fault {α β : Type} (f : Fault) (k : α → State → Res β) :
    (Res.fault f : Res α).bind k = .fault f := rfl
@[simp] theorem Res.finish_ok (u : Unit) (s : State) : (Res.ok u s).finish = .next s := rfl
@[simp] theorem Res.finish_raised (e : ErrorKind) (s : State) :
    (Res.raised e s : Res Unit).finish = .next (s.raise e) := rfl
@[simp] theorem Res.finish_fault (f : Fault) : (Res.fault f : Res Unit).finish = .fault f := rfl

/-- A part followed by another goes on only if the first did. -/
theorem Res.bind_eq_ok {α β : Type} {r : Res α} {k : α → State → Res β} {b : β} {t : State}
    (h : r.bind k = .ok b t) : ∃ a s, r = .ok a s ∧ k a s = .ok b t := by
  cases r with
  | ok a s => exact ⟨a, s, rfl, h⟩
  | raised e s => simp at h
  | fault f => simp at h

/-- A step that ends in a next state either went on to it or entered ERROR. -/
theorem Res.finish_eq_next {r : Res Unit} {t : State} (h : r.finish = .next t) :
    r = .ok () t ∨ ∃ e s, r = .raised e s ∧ t = s.raise e := by
  cases r with
  | ok a s => simp at h; exact .inl (h ▸ rfl)
  | raised e s => simp at h; exact .inr ⟨e, s, rfl, h.symm⟩
  | fault f => simp at h

end Sys2Proof.Machine
end

