-- ==== Sys2Proof/Laws/Ops.lean ====
section
/-! SUPPORT. One lemma per shared operation of the engine that says all it can do, for the provers to
cite instead of unfolding it. -/

namespace Sys2Proof.Machine

variable {s t : State}

/-! ## The bounds check and the cursors -/

theorem State.inBounds_iff {c : Word} {n : Nat} :
    s.inBounds c n = true ↔ c.toNat + n ≤ s.inputLen.toNat := by simp [State.inBounds]

/-- A cursor that passes the bounds check does not wrap when it advances (R18, R45). -/
theorem cursor_add_toNat {c len : Word} {n : Nat} (h : c.toNat + n ≤ len.toNat) :
    (c + BitVec.ofNat 32 n).toNat = c.toNat + n := by
  have := len.isLt
  rw [BitVec.toNat_add, BitVec.toNat_ofNat]
  omega

/-- `takeByte` (R92): past the byte within the input, `TruncatedInput` and nothing else beyond. -/
theorem State.takeByte_eq : s.takeByte =
    if s.byteChunkCursor.toNat + 1 ≤ s.inputLen.toNat then .ok () s.advanceChunk
    else .raised .truncatedInput s := by
  simp only [State.takeByte, State.inBounds_iff]

/-- `takeCode` (R93): past the link code within the input, `TruncatedInput` and nothing else
beyond. -/
theorem State.takeCode_eq : s.takeCode =
    if s.linkCursor.toNat + 2 ≤ s.inputLen.toNat then .ok () s.advanceLink
    else .raised .truncatedInput s := by
  simp only [State.takeCode, State.inBounds_iff]; rfl

/-- `nextByte` (R92): the read, then what `takeByte` does. -/
theorem State.nextByte_eq : s.nextByte =
    if s.byteChunkCursor.toNat + 1 ≤ s.inputLen.toNat then
      match readIn s.inMem s.byteChunkCursor.toNat with
      | .ok v => .ok v s.advanceChunk
      | .error f => .fault f
    else .raised .truncatedInput s := by
  by_cases h : s.byteChunkCursor.toNat + 1 ≤ s.inputLen.toNat
  · rw [if_pos h]; exact if_pos (State.inBounds_iff.mpr h)
  · rw [if_neg h]; exact if_neg (mt State.inBounds_iff.mp h)

/-- `nextCode` (R93): the read, then what `takeCode` does. -/
theorem State.nextCode_eq : s.nextCode =
    if s.linkCursor.toNat + 2 ≤ s.inputLen.toNat then
      match readIn16 s.inMem s.linkCursor.toNat with
      | .ok v => .ok v s.advanceLink
      | .error f => .fault f
    else .raised .truncatedInput s := by
  simp only [State.nextCode, State.inBounds_iff]; rfl

/-- Everything a successful `nextBit` does (R91): it shifts the unread bits, after loading the word
at the mask cursor when there were none. -/
theorem State.nextBit_ok {c : Bool} (h : s.nextBit = .ok c t) :
    (s.maskBitsLeft ≠ 0 ∧ c = s.maskWord.msb ∧ t = s.shiftMask) ∨
    (s.maskBitsLeft = 0 ∧ s.maskCursor.toNat + 4 ≤ s.inputLen.toNat ∧
      ∃ w, readIn32 s.inMem s.maskCursor.toNat = .ok w ∧ c = w.msb ∧
        t = (s.loadMask w).shiftMask) := by
  unfold State.nextBit State.refill at h
  by_cases h0 : s.maskBitsLeft = 0
  · by_cases hb : s.inBounds s.maskCursor maskWordBytes = true
    · cases hr : readIn32 s.inMem s.maskCursor.toNat with
      | error f => simp [h0, hb, hr] at h
      | ok w =>
        simp only [h0, hb, hr, if_true, Res.bind_ok, Res.ok.injEq, State.loadMask_maskWord] at h
        exact .inr ⟨h0, State.inBounds_iff.mp hb, w, rfl, h.1.symm, h.2.symm⟩
    · simp [h0, hb] at h
  · simp only [h0, if_false, Res.bind_ok, Res.ok.injEq] at h
    exact .inl ⟨h0, h.1.symm, h.2.symm⟩

/-- `nextBit` raises only `TruncatedInput`, on a refill, and then no register has changed (R91). -/
theorem State.nextBit_raised {e : ErrorKind} (h : s.nextBit = .raised e t) :
    e = .truncatedInput ∧ t = s ∧ s.maskBitsLeft = 0 ∧
      s.maskCursor.toNat + 4 > s.inputLen.toNat := by
  unfold State.nextBit State.refill at h
  by_cases h0 : s.maskBitsLeft = 0
  · rw [if_pos h0] at h
    by_cases hb : s.inBounds s.maskCursor maskWordBytes = true
    · rw [if_pos hb] at h
      cases hr : readIn32 s.inMem s.maskCursor.toNat <;> simp [hr] at h
    · rw [if_neg hb] at h
      simp only [Res.bind_raised, Res.raised.injEq] at h
      refine ⟨h.1.symm, h.2.symm, h0, ?_⟩
      have := mt State.inBounds_iff.mpr hb
      simp only [maskWordBytes] at this
      omega
  · rw [if_neg h0] at h
    simp at h

/-! ## Appending -/

/-- `appendByte` (R126): one byte at the output cursor, if the address exists. -/
theorem State.appendByte_eq {b : Byte} : s.appendByte b =
    if s.outputCursor.toNat < s.config.outCapacity.toNat then
      .ok () (s.appended (s.outMem.write s.outputCursor.toNat b) 1)
    else .fault (.outsideOut s.outputCursor.toNat) := by
  unfold State.appendByte writeOut
  split <;> rename_i h <;> split at h <;> simp_all

/-- The distance test (R105), without signed numbers (R111). -/
theorem State.sourceStart_neg {d : BitVec 12} :
    s.sourceStart d < 0 ↔ s.outputCursor.toNat ≤ d.toNat := by
  unfold State.sourceStart; omega

theorem State.sourceStart_toNat {d : BitVec 12} :
    (s.sourceStart d).toNat = s.outputCursor.toNat - d.toNat - 1 := by
  unfold State.sourceStart; omega

/-- How many bytes of a run are copied (R106). -/
theorem State.copyCount_fits {n : Nat} (h : s.outputCursor.toNat + n ≤ s.decodedSize.toNat) :
    s.copyCount n = some n := by
  unfold State.copyCount State.overshoots; rw [if_neg]; simpa using h

theorem State.copyCount_reject {n : Nat} (h : s.outputCursor.toNat + n > s.decodedSize.toNat)
    (hp : s.config.overshootPolicy = .reject) : s.copyCount n = none := by
  unfold State.copyCount State.overshoots; rw [if_pos (by simpa using h), hp]

theorem State.copyCount_truncate {n : Nat} (h : s.outputCursor.toNat + n > s.decodedSize.toNat)
    (hp : s.config.overshootPolicy = .truncate) :
    s.copyCount n = some (s.decodedSize.toNat - s.outputCursor.toNat) := by
  unfold State.copyCount State.overshoots; rw [if_pos (by simpa using h), hp]

/-- No run is copied past `decodedSize`, under either policy (R106). -/
theorem State.copyCount_le {n k : Nat} (h : s.copyCount n = some k) :
    k ≤ n ∧ (s.outputCursor.toNat ≤ s.decodedSize.toNat →
      s.outputCursor.toNat + k ≤ s.decodedSize.toNat) := by
  unfold State.copyCount State.overshoots at h
  split at h
  · rename_i ho
    simp only [gt_iff_lt, decide_eq_true_eq] at ho
    split at h
    · cases h
    · simp only [Option.some.injEq] at h; omega
  · rename_i ho
    simp only [gt_iff_lt, decide_eq_true_eq] at ho
    simp only [Option.some.injEq] at h; omega

/-- Everything a run that is copied does (R105 to R109): the distance reaches no further than the
output, the run is `copyCount` bytes, and only OUT and the output cursor change. -/
theorem State.replay_ok {d : BitVec 12} {n : Nat} (h : s.replay d n = .ok () t) :
    d.toNat < s.outputCursor.toNat ∧ ∃ k out, s.copyCount n = some k ∧ t = s.appended out k ∧
      CopySpec s.config.outCapacity (s.outputCursor.toNat - d.toNat - 1) s.outputCursor.toNat k
        s.outMem out := by
  unfold State.replay at h
  split at h
  · cases h
  · rename_i hd
    rw [State.sourceStart_neg] at hd
    split at h
    · cases h
    · rename_i k hk
      split at h
      · rename_i out ho
        rw [State.sourceStart_toNat] at ho
        cases h
        exact ⟨by omega, k, out, hk, rfl, copyRun_spec (by omega) ho⟩
      · cases h

/-- When a run raises (R105, R106): nothing is appended. -/
theorem State.replay_raised {d : BitVec 12} {n : Nat} {e : ErrorKind}
    (h : s.replay d n = .raised e t) : t = s ∧
      (e = .invalidBackReference ∧ s.outputCursor.toNat ≤ d.toNat ∨
       e = .outputSizeMismatch ∧ d.toNat < s.outputCursor.toNat ∧ s.copyCount n = none ∧
        s.config.overshootPolicy = .reject) := by
  unfold State.replay at h
  split at h
  · rename_i hd
    rw [State.sourceStart_neg] at hd
    cases h
    exact ⟨rfl, .inl ⟨rfl, hd⟩⟩
  · rename_i hd
    rw [State.sourceStart_neg] at hd
    split at h
    · rename_i hk
      cases h
      refine ⟨rfl, .inr ⟨rfl, by omega, hk, ?_⟩⟩
      unfold State.copyCount at hk
      cases hp : s.config.overshootPolicy with
      | reject => rfl
      | truncate => rw [hp] at hk; split at hk <;> cases hk
    · split at h <;> cases h

/-- A run with a distance that reaches no further than the output, from written bytes, within the
capacity, is copied. -/
theorem State.replay_finishes {d : BitVec 12} {n k : Nat} (hd : d.toNat < s.outputCursor.toNat)
    (hk : s.copyCount n = some k) (hw : ∀ a < s.outputCursor.toNat, s.outMem.read a ≠ none)
    (hc : s.outputCursor.toNat + k ≤ s.config.outCapacity.toNat) :
    ∃ t, s.replay d n = .ok () t := by
  obtain ⟨out, ho⟩ := copyRun_finishes (cap := s.config.outCapacity)
    (src := s.outputCursor.toNat - d.toNat - 1) (dst := s.outputCursor.toNat) (n := k)
    (out := s.outMem) (by omega) (fun a _ hb => hw a hb) hc
  refine ⟨s.appended out k, ?_⟩
  unfold State.replay
  rw [if_neg (by rw [State.sourceStart_neg]; omega), hk, State.sourceStart_toNat]
  simp only [ho]

/-- The address just past a copied run fits in the output cursor. -/
theorem State.appended_toNat {k src : Nat} {out : Memory}
    (h : CopySpec s.config.outCapacity src s.outputCursor.toNat k s.outMem out) :
    (s.appended out k).outputCursor.toNat = s.outputCursor.toNat + k := by
  rw [State.appended_outputCursor]
  rcases Nat.eq_zero_or_pos k with rfl | hk
  · simp
  · have h1 := h.room (k - 1) (by omega)
    exact cursor_add_toNat (len := s.config.outCapacity) (by omega)

/-! ## The instructions -/

/-- `HDR` (R80): its three exits. -/
theorem execHdr_eq (size link chunk : Word) : execHdr size link chunk s =
    if s.inputLen.toNat < 16 then .next (s.raise .malformedHeader)
    else if size.toNat > s.config.outCapacity.toNat then
      .next ((s.setHeader size link chunk).raise .allocationFailure)
    else .next (s.setHeader size link chunk).initCall.terminalTest := by
  unfold execHdr State.parseHeader
  simp only [headerSize]
  by_cases h1 : s.inputLen.toNat < 16
  · simp only [h1, if_true, Res.finish_raised]
  · by_cases h2 : size.toNat > s.config.outCapacity.toNat
    · simp only [h1, h2, if_true, if_false, Res.finish_raised]
    · simp only [h1, h2, if_false, Res.finish_ok]

/-- `LIT` (R126): its exits. -/
theorem execLit_eq (b : Byte) : execLit b s =
    if s.byteChunkCursor.toNat + 1 ≤ s.inputLen.toNat then
      if s.outputCursor.toNat < s.config.outCapacity.toNat then
        .next (s.advanceChunk.appended (s.outMem.write s.outputCursor.toNat b) 1).terminalTest
      else .fault (.outsideOut s.outputCursor.toNat)
    else .next (s.raise .truncatedInput) := by
  unfold execLit
  rw [State.takeByte_eq]
  by_cases h1 : s.byteChunkCursor.toNat + 1 ≤ s.inputLen.toNat
  · rw [if_pos h1, if_pos h1, Res.bind_ok, State.appendByte_eq]
    simp only [State.advanceChunk_outputCursor, State.advanceChunk_config,
      State.advanceChunk_outMem]
    by_cases h2 : s.outputCursor.toNat < s.config.outCapacity.toNat
    · simp only [h2, if_true, Res.bind_ok, Res.finish_ok]
    · simp only [h2, if_false, Res.bind_fault, Res.finish_fault]
  · rw [if_neg h1, if_neg h1]; rfl

/-- What a run with its terminal test answers (R101, R102): a next state reached by the copy, or by
one of the two errors. -/
theorem replay_terminal_next {d : BitVec 12} {n : Nat}
    (h : ((s.replay d n).bind fun _ u => .ok () u.terminalTest).finish = .next t) :
    (∃ u, s.replay d n = .ok () u ∧ t = u.terminalTest) ∨
    (∃ e, s.replay d n = .raised e s ∧ t = s.raise e) := by
  cases hr : s.replay d n with
  | ok u v =>
    simp only [hr, Res.bind_ok, Res.finish_ok, Host.Outcome.next.injEq] at h
    exact .inl ⟨v, rfl, h.symm⟩
  | raised e v =>
    simp only [hr, Res.bind_raised, Res.finish_raised, Host.Outcome.next.injEq] at h
    obtain ⟨rfl, -⟩ := State.replay_raised hr
    exact .inr ⟨e, rfl, h.symm⟩
  | fault f => simp [hr] at h

/-- `REFS` (R101): the link code, then the run. -/
theorem execRefs_eq (lengthField : BitVec 4) (d : BitVec 12) : execRefs lengthField d s =
    if s.linkCursor.toNat + 2 ≤ s.inputLen.toNat then
      ((s.advanceLink.replay d (shortRun lengthField)).bind
        fun _ u => .ok () u.terminalTest).finish
    else .next (s.raise .truncatedInput) := by
  unfold execRefs
  rw [State.takeCode_eq]
  split <;> rfl

/-- `REFX` (R102): the link code, the extension byte, then the run. -/
theorem execRefx_eq (d : BitVec 12) (e : Byte) : execRefx d e s =
    if s.linkCursor.toNat + 2 ≤ s.inputLen.toNat then
      if s.byteChunkCursor.toNat + 1 ≤ s.inputLen.toNat then
        ((s.advanceLink.advanceChunk.replay d (extendedRun e)).bind
          fun _ u => .ok () u.terminalTest).finish
      else .next (s.advanceLink.raise .truncatedInput)
    else .next (s.raise .truncatedInput) := by
  unfold execRefx
  rw [State.takeCode_eq]
  by_cases h1 : s.linkCursor.toNat + 2 ≤ s.inputLen.toNat
  · rw [if_pos h1, if_pos h1, Res.bind_ok, State.takeByte_eq]
    simp only [State.advanceLink_byteChunkCursor, State.advanceLink_inputLen]
    by_cases h2 : s.byteChunkCursor.toNat + 1 ≤ s.inputLen.toNat
    · simp only [h2, if_true, Res.bind_ok]
    · simp only [h2, if_false, Res.bind_raised, Res.finish_raised]
  · rw [if_neg h1, if_neg h1]; rfl

/-! ## The steps -/

/-- The engine has no step in IDLE, DONE and ERROR (R120). -/
theorem engineStep_of_not_busy (h : s.busy = false) : engineStep s = .next s := by
  unfold State.busy at h
  unfold engineStep
  cases hf : s.fsm <;> simp_all

/-- The engine's step in each of its five states (R121). -/
theorem engineStep_header (h : s.fsm = .header) : engineStep s = s.runFetched s.fetchHeader := by
  simp only [engineStep, h]

theorem engineStep_awaitMaskBit (h : s.fsm = .awaitMaskBit) :
    engineStep s = s.awaitStep.finish := by simp only [engineStep, h]

theorem engineStep_dispatch (h : s.fsm = .dispatch) : engineStep s = .next s.dispatchStep := by
  simp only [engineStep, h]

theorem engineStep_literal (h : s.fsm = .literal) :
    engineStep s = s.runFetched s.fetchLiteral := by simp only [engineStep, h]

theorem engineStep_backref (h : s.fsm = .backref) :
    engineStep s = s.runFetched s.fetchBackref := by simp only [engineStep, h]

/-- What is fetched in HEADER (R44, R80): `MalformedHeader` below 16 bytes, else the decoder's
answer on IN[4 .. 15]. -/
theorem State.fetchHeader_eq : s.fetchHeader =
    if s.inputLen.toNat < 16 then .raised .malformedHeader s
    else
      match readInBytes s.inMem 4 12 with
      | .ok bs => s.decoded (decodeHeaderFields bs)
      | .error f => .fault f := rfl

/-- What is fetched in LITERAL (R126): the byte at the byte-chunk cursor, as a `LIT`. -/
theorem State.fetchLiteral_eq : s.fetchLiteral =
    if s.byteChunkCursor.toNat + 1 ≤ s.inputLen.toNat then
      match readIn s.inMem s.byteChunkCursor.toNat with
      | .ok b => .ok (.lit b) s
      | .error f => .fault f
    else .raised .truncatedInput s := by
  unfold State.fetchLiteral State.piece
  simp only [State.inBounds_iff, readInBytes]
  by_cases h : s.byteChunkCursor.toNat + 1 ≤ s.inputLen.toNat
  · simp only [h, if_true]
    cases readIn s.inMem s.byteChunkCursor.toNat <;> rfl
  · simp only [h, if_false, Res.bind_raised]

/-- What is fetched in BACKREF (R100): the link code, and its extension byte when the length field
is 0, as a `REFX` or a `REFS`. -/
theorem State.fetchBackref_eq : s.fetchBackref =
    if s.linkCursor.toNat + 2 ≤ s.inputLen.toNat then
      match readIn16 s.inMem s.linkCursor.toNat with
      | .error f => .fault f
      | .ok code =>
        if linkLengthField code = 0 then
          if s.byteChunkCursor.toNat + 1 ≤ s.inputLen.toNat then
            match readIn s.inMem s.byteChunkCursor.toNat with
            | .ok e => .ok (.refx (linkDistance code) e) s
            | .error f => .fault f
          else .raised .truncatedInput s.advanceLink
        else .ok (.refs (linkLengthField code) (linkDistance code)) s
    else .raised .truncatedInput s := by
  unfold State.fetchBackref State.piece
  simp only [State.inBounds_iff, readInBytes, readIn16, linkCodeBytes, State.advanceLink_inMem,
    State.advanceLink_inputLen]
  by_cases h1 : s.linkCursor.toNat + 2 ≤ s.inputLen.toNat
  · simp only [h1, if_true]
    cases readIn s.inMem s.linkCursor.toNat with
    | error f => rfl
    | ok b0 =>
      cases readIn s.inMem (s.linkCursor.toNat + 1) with
      | error f => rfl
      | ok b1 =>
        simp only [Res.bind_ok, needsExtension, decide_eq_true_eq]
        by_cases h0 : linkLengthField (be16 b0 b1) = 0
        · simp only [h0, if_true]
          by_cases h2 : s.byteChunkCursor.toNat + 1 ≤ s.inputLen.toNat
          · simp only [h2, if_true]
            cases readIn s.inMem s.byteChunkCursor.toNat with
            | error f => rfl
            | ok e => simp only [Res.bind_ok, decode, decodeToken, decodeBackref, h0, if_true]; rfl
          · simp only [h2, if_false, Res.bind_raised]
        · simp only [h0, if_false, decode, decodeToken, decodeBackref]; rfl
  · simp only [h1, if_false, Res.bind_raised]

/-- The host's reads change only what it has read (log 3). -/
theorem hostReadOut_next {a : Word} (h : s.hostReadOut a = .next t) :
    ∃ b, t = s.answer (.outByte b) := by
  unfold State.hostReadOut at h
  split at h
  · split at h
    · split at h
      · rename_i b _
        exact ⟨b, by simpa using h.symm⟩
      · cases h
    · cases h
  · cases h

/-- A host write that is not refused is made, and only while not busy (R57). -/
theorem whenNotBusy_next {u : State} (h : s.whenNotBusy u = .next t) :
    s.busy = false ∧ t = u := by
  unfold State.whenNotBusy at h
  split at h
  · cases h
  · rename_i hb
    exact ⟨by simpa using hb, by simpa using h.symm⟩

end Sys2Proof.Machine
end

