-- ==== Sys2Proof/Laws/PerInstr.lean ====
section
/-! SUPPORT. The per-instruction family: what an instruction is encoded as is exactly its control
bit with its bytes of the two streams, or the header record (R60, R67). -/

namespace Sys2Proof.Laws.EncodePieces

/-- The encoder writes the pieces that `controlBit`, `linkBytes` and `chunkBytes` name; an
instruction with no control bit is the sixteen-byte header record. -/
def Statement (i : Instr) : Prop :=
  (∀ c, controlBit i = some c → encode i = .token c (linkBytes i) (chunkBytes i)) ∧
  (controlBit i = none → ∃ bytes, encode i = .header bytes ∧ bytes.length = headerSize)

theorem hdr (size link chunk : Word) : Statement (.hdr size link chunk) :=
  ⟨nofun, fun _ => ⟨_, rfl, rfl⟩⟩

theorem lit (b : Byte) : Statement (.lit b) := ⟨by rintro _ ⟨⟩; rfl, nofun⟩

theorem refs (lengthField : BitVec 4) (distance : BitVec 12) :
    Statement (.refs lengthField distance) := ⟨by rintro _ ⟨⟩; rfl, nofun⟩

theorem refx (distance : BitVec 12) (e : Byte) : Statement (.refx distance e) :=
  ⟨by rintro _ ⟨⟩; rfl, nofun⟩

end Sys2Proof.Laws.EncodePieces
end

