-- ==== Sys2Proof/Laws/Steps.lean ====
section
/-! SUPPORT. Everything a step of the engine can do, said once: invariants are proved by cases over
EngineMove instead of unfolding the step. -/

namespace Sys2Proof.Machine

variable {s t : State}

/-- Where a back-reference has got to when its run is tried: the link code read at the link cursor
(R100 step 1), the extension byte too when the length field is 0, the cursors past them. -/
inductive BackrefRead (s : State) : State → BitVec 12 → Nat → Instr → Prop where
  | short (code : BitVec 16) (bound : s.linkCursor.toNat + 2 ≤ s.inputLen.toNat)
      (read : readIn16 s.inMem s.linkCursor.toNat = .ok code) (form : linkLengthField code ≠ 0) :
      BackrefRead s s.advanceLink (linkDistance code) (shortRun (linkLengthField code))
        (.refs (linkLengthField code) (linkDistance code))
  | extended (code : BitVec 16) (e : Byte) (bound : s.linkCursor.toNat + 2 ≤ s.inputLen.toNat)
      (read : readIn16 s.inMem s.linkCursor.toNat = .ok code) (form : linkLengthField code = 0)
      (bound' : s.byteChunkCursor.toNat + 1 ≤ s.inputLen.toNat)
      (read' : s.inMem.read s.byteChunkCursor.toNat = some e) :
      BackrefRead s s.advanceLink.advanceChunk (linkDistance code) (extendedRun e)
        (.refx (linkDistance code) e)

/-- One step of the engine, by the state it is taken in and what happens there (R121). -/
inductive EngineMove (s : State) : State → Prop where
  | waits (idle : s.busy = false) : EngineMove s s
  | headerShort (phase : s.fsm = .header) (short : s.inputLen.toNat < 16) :
      EngineMove s (s.raise .malformedHeader)
  | headerTooLarge (phase : s.fsm = .header) (len : 16 ≤ s.inputLen.toNat)
      (size link chunk : Word) (readSize : readIn32 s.inMem 4 = .ok size)
      (readLink : readIn32 s.inMem 8 = .ok link) (readChunk : readIn32 s.inMem 12 = .ok chunk)
      (large : s.config.outCapacity.toNat < size.toNat) :
      EngineMove s ((s.setHeader size link chunk).raise .allocationFailure)
  | headerRead (phase : s.fsm = .header) (len : 16 ≤ s.inputLen.toNat) (size link chunk : Word)
      (readSize : readIn32 s.inMem 4 = .ok size) (readLink : readIn32 s.inMem 8 = .ok link)
      (readChunk : readIn32 s.inMem 12 = .ok chunk)
      (fits : size.toNat ≤ s.config.outCapacity.toNat) :
      EngineMove s (s.setHeader size link chunk).initCall.terminalTest
  | maskMissing (phase : s.fsm = .awaitMaskBit) (empty : s.maskBitsLeft = 0)
      (bound : s.inputLen.toNat < s.maskCursor.toNat + 4) : EngineMove s (s.raise .truncatedInput)
  | maskShift (phase : s.fsm = .awaitMaskBit) (left : s.maskBitsLeft ≠ 0) :
      EngineMove s ((s.shiftMask.latch s.maskWord.msb).goto .dispatch)
  | maskRefill (phase : s.fsm = .awaitMaskBit) (empty : s.maskBitsLeft = 0)
      (bound : s.maskCursor.toNat + 4 ≤ s.inputLen.toNat) (w : Word)
      (read : readIn32 s.inMem s.maskCursor.toNat = .ok w) :
      EngineMove s (((s.loadMask w).shiftMask.latch w.msb).goto .dispatch)
  | dispatchLiteral (phase : s.fsm = .dispatch) (bit : s.ctrlBit = true) :
      EngineMove s (s.goto .literal)
  | dispatchBackref (phase : s.fsm = .dispatch) (bit : s.ctrlBit = false) :
      EngineMove s (s.goto .backref)
  | literalMissing (phase : s.fsm = .literal)
      (bound : s.inputLen.toNat < s.byteChunkCursor.toNat + 1) :
      EngineMove s (s.raise .truncatedInput)
  | literal (phase : s.fsm = .literal) (bound : s.byteChunkCursor.toNat + 1 ≤ s.inputLen.toNat)
      (b : Byte) (read : s.inMem.read s.byteChunkCursor.toNat = some b)
      (room : s.outputCursor.toNat < s.config.outCapacity.toNat)
      (fetched : s.fetchLiteral = .ok (.lit b) s) :
      EngineMove s
        (s.advanceChunk.appended (s.outMem.write s.outputCursor.toNat b) 1).terminalTest
  | codeMissing (phase : s.fsm = .backref) (bound : s.inputLen.toNat < s.linkCursor.toNat + 2) :
      EngineMove s (s.raise .truncatedInput)
  | extensionMissing (phase : s.fsm = .backref) (code : BitVec 16)
      (bound : s.linkCursor.toNat + 2 ≤ s.inputLen.toNat)
      (read : readIn16 s.inMem s.linkCursor.toNat = .ok code) (form : linkLengthField code = 0)
      (bound' : s.inputLen.toNat < s.byteChunkCursor.toNat + 1) :
      EngineMove s (s.advanceLink.raise .truncatedInput)
  | runRaised (phase : s.fsm = .backref) (u : State) (d : BitVec 12) (n : Nat) (i : Instr)
      (e : ErrorKind) (read : BackrefRead s u d n i) (run : u.replay d n = .raised e u) :
      EngineMove s (u.raise e)
  | run (phase : s.fsm = .backref) (u v : State) (d : BitVec 12) (n : Nat) (i : Instr)
      (read : BackrefRead s u d n i) (run : u.replay d n = .ok () v)
      (fetched : s.fetchBackref = .ok i s) : EngineMove s v.terminalTest

theorem readInBytes_header {m : Memory} {bs : List Byte} (h : readInBytes m 4 12 = .ok bs) :
    ∃ size link chunk, readIn32 m 4 = .ok size ∧ readIn32 m 8 = .ok link ∧
      readIn32 m 12 = .ok chunk ∧ decodeHeaderFields bs = .ok (.hdr size link chunk) := by
  obtain ⟨hl, hr⟩ := readInBytes_eq_ok.mp h
  match bs, hl with
  | [a0, a1, a2, a3, b0, b1, b2, b3, c0, c1, c2, c3], _ =>
    have read : ∀ i, i < 12 → m.read (4 + i) =
        [a0, a1, a2, a3, b0, b1, b2, b3, c0, c1, c2, c3][i]? := hr
    exact ⟨_, _, _,
      readIn32_eq_ok.mpr ⟨a0, a1, a2, a3, read 0 (by omega), read 1 (by omega),
        read 2 (by omega), read 3 (by omega), rfl⟩,
      readIn32_eq_ok.mpr ⟨b0, b1, b2, b3, read 4 (by omega), read 5 (by omega),
        read 6 (by omega), read 7 (by omega), rfl⟩,
      readIn32_eq_ok.mpr ⟨c0, c1, c2, c3, read 8 (by omega), read 9 (by omega),
        read 10 (by omega), read 11 (by omega), rfl⟩, rfl⟩

theorem header_move (hf : s.fsm = .header) (h : engineStep s = .next t) : EngineMove s t := by
  rw [engineStep_header hf, State.fetchHeader_eq] at h
  by_cases hl : s.inputLen.toNat < 16
  · rw [if_pos hl] at h
    cases h
    exact .headerShort hf hl
  · rw [if_neg hl] at h
    cases hb : readInBytes s.inMem 4 12 with
    | error f => rw [hb] at h; cases h
    | ok bs =>
      obtain ⟨size, link, chunk, r0, r1, r2, hd⟩ := readInBytes_header hb
      rw [hb] at h
      simp only [hd, State.decoded, State.runFetched, exec, execHdr_eq, if_neg hl] at h
      by_cases hc : size.toNat > s.config.outCapacity.toNat
      · rw [if_pos hc] at h
        cases h
        exact .headerTooLarge hf (by omega) size link chunk r0 r1 r2 hc
      · rw [if_neg hc] at h
        cases h
        exact .headerRead hf (by omega) size link chunk r0 r1 r2 (by omega)

theorem await_move (hf : s.fsm = .awaitMaskBit) (h : engineStep s = .next t) : EngineMove s t := by
  rw [engineStep_awaitMaskBit hf, State.awaitStep] at h
  cases hb : s.nextBit with
  | ok c u =>
    rw [hb] at h
    cases h
    rcases State.nextBit_ok hb with ⟨h0, rfl, rfl⟩ | ⟨h0, hl, w, hw, rfl, rfl⟩
    · exact .maskShift hf h0
    · exact .maskRefill hf h0 hl w hw
  | raised e u =>
    obtain ⟨rfl, rfl, h0, hl⟩ := State.nextBit_raised hb
    rw [hb] at h
    cases h
    exact .maskMissing hf h0 hl
  | fault f => rw [hb] at h; cases h

theorem literal_move (hf : s.fsm = .literal) (h : engineStep s = .next t) : EngineMove s t := by
  rw [engineStep_literal hf] at h
  have he := State.fetchLiteral_eq (s := s)
  by_cases hl : s.byteChunkCursor.toNat + 1 ≤ s.inputLen.toNat
  · rw [if_pos hl] at he
    cases hb : readIn s.inMem s.byteChunkCursor.toNat with
    | error f => rw [he, hb] at h; cases h
    | ok b =>
      simp only [hb] at he
      rw [he] at h
      simp only [State.runFetched, exec, execLit_eq, if_pos hl] at h
      by_cases hc : s.outputCursor.toNat < s.config.outCapacity.toNat
      · rw [if_pos hc] at h
        cases h
        exact .literal hf hl b (readIn_eq_ok.mp hb) hc he
      · rw [if_neg hc] at h; cases h
  · rw [he, if_neg hl] at h
    cases h
    exact .literalMissing hf (by omega)

/-- What a back-reference that has been read does next. -/
theorem run_move (hf : s.fsm = .backref) {u : State} {d : BitVec 12} {n : Nat} {i : Instr}
    (hr : BackrefRead s u d n i) (hi : s.fetchBackref = .ok i s)
    (h : ((u.replay d n).bind fun _ v => .ok () v.terminalTest).finish = .next t) :
    EngineMove s t := by
  rcases replay_terminal_next h with ⟨v, hv, rfl⟩ | ⟨e, he, rfl⟩
  · exact .run hf u v d n i hr hv hi
  · exact .runRaised hf u d n i e hr he

theorem backref_move (hf : s.fsm = .backref) (h : engineStep s = .next t) : EngineMove s t := by
  rw [engineStep_backref hf] at h
  have he := State.fetchBackref_eq (s := s)
  by_cases h1 : s.linkCursor.toNat + 2 ≤ s.inputLen.toNat
  · rw [if_pos h1] at he
    cases hc : readIn16 s.inMem s.linkCursor.toNat with
    | error f => rw [he, hc] at h; cases h
    | ok code =>
      simp only [hc] at he
      by_cases h0 : linkLengthField code = 0
      · rw [if_pos h0] at he
        by_cases h2 : s.byteChunkCursor.toNat + 1 ≤ s.inputLen.toNat
        · rw [if_pos h2] at he
          cases hb : readIn s.inMem s.byteChunkCursor.toNat with
          | error f => rw [he, hb] at h; cases h
          | ok e =>
            simp only [hb] at he
            rw [he] at h
            simp only [State.runFetched, exec, execRefx_eq, if_pos h1, if_pos h2] at h
            exact run_move hf (.extended code e h1 hc h0 h2 (readIn_eq_ok.mp hb)) he h
        · rw [he, if_neg h2] at h
          cases h
          exact .extensionMissing hf code h1 hc h0 (by omega)
      · rw [if_neg h0] at he
        rw [he] at h
        simp only [State.runFetched, exec, execRefs_eq, if_pos h1] at h
        exact run_move hf (.short code h1 hc h0) he h
  · rw [he, if_neg h1] at h
    cases h
    exact .codeMissing hf (by omega)

/-- The inversion lemma of the engine's step (R121). -/
theorem engineStep_next (h : engineStep s = .next t) : EngineMove s t := by
  cases hf : s.fsm with
  | header => exact header_move hf h
  | awaitMaskBit => exact await_move hf h
  | literal => exact literal_move hf h
  | backref => exact backref_move hf h
  | dispatch =>
    rw [engineStep_dispatch hf, State.dispatchStep] at h
    cases hc : s.ctrlBit with
    | true => rw [hc] at h; cases h; exact .dispatchLiteral hf hc
    | false => rw [hc] at h; cases h; exact .dispatchBackref hf hc
  | idle =>
    have hb : s.busy = false := by simp [State.busy, hf]
    rw [engineStep_of_not_busy hb] at h; cases h; exact .waits hb
  | done =>
    have hb : s.busy = false := by simp [State.busy, hf]
    rw [engineStep_of_not_busy hb] at h; cases h; exact .waits hb
  | error =>
    have hb : s.busy = false := by simp [State.busy, hf]
    rw [engineStep_of_not_busy hb] at h; cases h; exact .waits hb

/-- One step of the host, by its move (R179). -/
inductive HostStepped (s : State) : State → Prop where
  | loaded (a : Word) (b : Byte) (idle : s.busy = false) : HostStepped s (s.loadIn a b)
  | lengthWritten (len : Word) (idle : s.busy = false) : HostStepped s (s.setInputLen len)
  | started (idle : s.busy = false) : HostStepped s s.acceptStart
  | ignored (busy : s.busy = true) : HostStepped s s
  | wasReset : HostStepped s s.hardwareReset
  | answered (r : HostReading) : HostStepped s (s.answer r)
  | engine (t : State) (move : EngineMove s t) : HostStepped s t

/-- The inversion lemma of the host's moves (R179). -/
theorem hostStep_next {m : HostMove} (h : hostStep m s = .next t) : HostStepped s t := by
  cases m with
  | writeIn a b => obtain ⟨hb, rfl⟩ := whenNotBusy_next h; exact .loaded a b hb
  | writeInputLen len => obtain ⟨hb, rfl⟩ := whenNotBusy_next h; exact .lengthWritten len hb
  | start =>
    cases hb : s.busy with
    | true => simp only [hostStep, hb, if_true] at h; cases h; exact .ignored hb
    | false =>
      simp only [hostStep, hb, Bool.false_eq_true, if_false] at h
      cases h
      exact .started hb
  | reset => cases h; exact .wasReset
  | poll => cases h; exact .answered _
  | readInputLen => cases h; exact .answered _
  | readErrCode => cases h; exact .answered _
  | readResultLen => cases h; exact .answered _
  | readOut a => obtain ⟨b, rfl⟩ := hostReadOut_next h; exact .answered _
  | wait => exact .engine t (engineStep_next h)

/-- The inversion lemma of the step: the engine's, or a move of the host taken off its list
(log 3). -/
theorem step_next (h : step s = .next t) :
    (s.host.moves = [] ∧ EngineMove s t) ∨
      ∃ m ms, s.host.moves = m :: ms ∧ HostStepped (s.setMoves ms) t := by
  unfold step at h
  split at h
  · rename_i hm
    exact .inl ⟨hm, engineStep_next h⟩
  · rename_i m ms hm
    exact .inr ⟨m, ms, hm, hostStep_next h⟩

end Sys2Proof.Machine
end

