-- ==== Sys2Proof/Tests/Slice0.lean ====
section
/-! SUPPORT. Tests whose expected values come from spec/, most from its vectors (95_test_vectors.md),
and a witness for every statement that has hypotheses. -/

namespace Sys2Proof.Machine

/-! ## Helpers -/

/-- The outcome is a next state that passes a check. -/
def nextWith (o : Host.Outcome State Fault Refusal) (p : State → Bool) : Bool :=
  match o with
  | .next t => p t
  | .fault _ | .refused _ => false

theorem nextWith_exists {o : Host.Outcome State Fault Refusal} {p : State → Bool}
    (h : nextWith o p = true) : ∃ t, o = .next t ∧ p t = true := by
  cases o with
  | next t => exact ⟨t, rfl, h⟩
  | fault _ => exact absurd h Bool.false_ne_true
  | refused _ => exact absurd h Bool.false_ne_true

/-- A part of a step goes on, in a state that passes a check. -/
def okWith {α : Type} (r : Res α) (p : State → Bool) : Bool :=
  match r with
  | .ok _ t => p t
  | .raised _ _ | .fault _ => false

theorem okWith_exists {r : Res Unit} {p : State → Bool} (h : okWith r p = true) :
    ∃ t, r = .ok () t ∧ p t = true := by
  cases r with
  | ok _ t => exact ⟨t, rfl, h⟩
  | raised _ _ => exact absurd h Bool.false_ne_true
  | fault _ => exact absurd h Bool.false_ne_true

/-- A memory that holds bytes from an address on. -/
def bytesAt (a : Nat) (bs : List Byte) : Memory := Memory.writeList [] a bs

/-- The container of program P2 (95_test_vectors.md). -/
def p2Bytes : List Byte :=
  [0, 0, 0, 0, 0, 0, 0, 8, 0, 0, 0, 0x14, 0, 0, 0, 0x16] ++
    [0xC0, 0, 0, 0, 0x40, 0x01, 0x41, 0x42]

/-- The states of P2's trace (V26): HEADER, and the ones after steps 1, 2, 3, 9 and 10. -/
def atHeader : State :=
  { State.reset with inMem := bytesAt 0 p2Bytes, inputLen := 24, fsm := .header }

def atAwait : State :=
  { atHeader with
    decodedSize := 8, linkTableOffset := 20, byteChunkOffset := 22, maskCursor := 16
    linkCursor := 20, byteChunkCursor := 22, fsm := .awaitMaskBit }

def atDispatch : State :=
  { atAwait with
    maskCursor := 20, maskWord := 0x80000000, maskBitsLeft := 31, ctrlBit := true
    fsm := .dispatch }

def atLiteral : State := { atDispatch with fsm := .literal }

def atBackref : State :=
  { atAwait with
    maskCursor := 20, maskBitsLeft := 29, byteChunkCursor := 24, outputCursor := 2
    outMem := bytesAt 0 [0x41, 0x42], fsm := .backref }

def atDone : State :=
  { atBackref with
    linkCursor := 22, outputCursor := 8, resultLen := 8, fsm := .done
    outMem := bytesAt 0 [0x41, 0x42, 0x41, 0x42, 0x41, 0x42, 0x41, 0x42] }

/-- The state before the `REFX` of vector V19, its extension byte at 22. -/
def atExtended : State :=
  { atBackref with
    inMem := bytesAt 20 [0x00, 0x00, 0x00], inputLen := 23, byteChunkCursor := 22
    decodedSize := 19, outputCursor := 1, outMem := bytesAt 0 [0x5A] }

/-- The state before the overshooting run of vector V20, with a policy. -/
def atOvershoot (policy : OvershootPolicy) : State :=
  { atBackref with
    config := ⟨0x100000, policy⟩, inMem := bytesAt 20 [0x10, 0x00], inputLen := 26
    decodedSize := 5, outputCursor := 4, outMem := bytesAt 0 [0xAA, 0xBB, 0xCC, 0xDD] }

/-- The state in which a call has failed. -/
def atError : State :=
  { atBackref with errCode := some .invalidBackReference, fsm := .error }

/-! ## Encodings (spec/30_encoding.md) -/

/-- R63, R67: length field 0 selects `REFX`, so a `REFS` with it is ill formed. -/
theorem test_refs_with_length_field_zero_is_ill_formed :
    (Instr.refs 0 5).wellFormed = false := by decide

/-- R63: 0100 000000000001 is length field 4, distance 1. -/
theorem test_decode_refs :
    decode (.token false [0b01000000, 0b00000001] []) = .ok (.refs 0b0100 0b000000000001) := rfl

/-- R63, R64: 0000 000000011111 is distance 31 of the extended form, with its byte. -/
theorem test_decode_refx :
    decode (.token false [0b00000000, 0b00011111] [0b00010110]) =
      .ok (.refx 0b000000011111 0b00010110) := rfl

/-- R62, R64: control bit 1 and one byte. -/
theorem test_decode_lit : decode (.token true [] [0b01000001]) = .ok (.lit 0b01000001) := rfl

/-- R61, V4: the three fields, most significant byte first; the tag is ignored. -/
theorem test_decode_hdr :
    decode (.header [0xDE, 0xAD, 0xBE, 0xEF, 0, 0, 0, 9, 0, 0, 1, 0x10, 0x80, 0, 0, 0x10]) =
      .ok (.hdr 9 0x110 0x80000010) := rfl

/-- R45, R81: a missing piece is rejected under its own name. -/
theorem test_decode_rejects_missing_pieces :
    decode (.header (List.replicate 15 0)) = .error .headerTooShort ∧
    decode (.token true [] []) = .error .literalByteMissing ∧
    decode (.token false [0x40] []) = .error .linkCodeTooShort ∧
    decode (.token false [0x00, 0x05] []) = .error .extensionByteMissing :=
  ⟨rfl, rfl, rfl, rfl⟩

/-- R71, R72: the canonical container of P2's tokens is the container the spec prints. -/
theorem test_canonical_container_of_p2 :
    ([Notated.lit 0x41, .lit 0x42, .ref 1 6].filterMap assemble).length = 3 ∧
    canonicalContainer 0 8 ([Notated.lit 0x41, .lit 0x42, .ref 1 6].filterMap assemble) =
      p2Bytes := by decide

/-- The opcode table's rows, by its own bit numbers (R61, R67). -/
theorem test_decodeTableWord :
    decodeTableWord 24 0x10000 = some (.lit 0) ∧ decodeTableWord 24 0x04001 = some (.refs 4 1) ∧
    decodeTableWord 24 0x00FFF = some (.refx 0xFFF 0) ∧
    decodeTableWord 128 (0x8 * 2 ^ 64 + 0x14 * 2 ^ 32 + 0x16) = some (.hdr 8 20 22) ∧
    decodeTableWord 24 0x20000 = none := by decide

/-! ## A word placed at reset runs as the next step (log 8) -/

/-- V2: an all-zero header ends in DONE with the empty result. -/
theorem test_fetchWord_hdr :
    nextWith (step (State.reset.withFetchWord 128 0)) (fun t => t.done && t.resultLen == 0) =
      true := by decide

/-- V13: a back-reference as the first token is invalid, in both forms. -/
theorem test_fetchWord_backref :
    nextWith (step (State.reset.withFetchWord 24 0x01000))
      (fun t => t.errCode == some .invalidBackReference && t.byteChunkCursor == 0) = true ∧
    nextWith (step (State.reset.withFetchWord 24 0x00000))
      (fun t => t.errCode == some .invalidBackReference && t.byteChunkCursor != 0) = true := by
  decide

/-- R126: a literal is legal at output cursor 0. -/
theorem test_fetchWord_lit :
    nextWith (step (State.reset.withFetchWord 24 0x10000))
      (fun t => t.outputCursor == 1 && t.outMem.read 0 == some 0) = true := by decide

/-! ## The steps of P2 (V26), then each token's corners -/

theorem test_header_step : nextWith (engineStep atHeader) (· = atAwait) = true := by decide

theorem test_await_step : nextWith (engineStep atAwait) (· = atDispatch) = true := by decide

theorem test_dispatch_step : nextWith (engineStep atDispatch) (· = atLiteral) = true := by decide

theorem test_backref_step : nextWith (engineStep atBackref) (· = atDone) = true := by decide

/-- V4, V5: one byte too many for the output memory, and exactly enough. -/
theorem test_hdr_capacity :
    nextWith (exec (.hdr 9 16 16) { atHeader with config := ⟨8, .reject⟩ })
      (fun t => t.errCode == some .allocationFailure && t.decodedSize == 9) = true ∧
    nextWith (exec (.hdr 8 16 16) { atHeader with config := ⟨8, .reject⟩ })
      (fun t => t.fsm == .awaitMaskBit) = true := by decide

/-- V1: the length test comes before any header register is written. -/
theorem test_hdr_short :
    nextWith (exec (.hdr 9 16 16) { atAwait with inputLen := 15 })
      (fun t => t.errCode == some .malformedHeader && t.decodedSize == 8) = true := by decide

/-- V26, step 4. -/
theorem test_lit : nextWith (exec (.lit 0x41) atLiteral)
    (fun t => t.outMem.read 0 == some 0x41 && t.byteChunkCursor == 23 && t.outputCursor == 1 &&
      t.fsm == .awaitMaskBit) = true := by decide

/-- R92's example: a byte-chunk cursor at INPUT_LEN. -/
theorem test_lit_missing_byte :
    nextWith (exec (.lit 0x41) { atLiteral with byteChunkCursor := 24 })
      (fun t => t.errCode == some .truncatedInput && t.byteChunkCursor == 24 &&
        t.outMem == []) = true := by decide

/-- V20: under Reject nothing is appended; under Truncate one byte, and the call succeeds. -/
theorem test_refs_overshoot :
    nextWith (exec (.refs 1 0) (atOvershoot .reject))
      (fun t => t.errCode == some .outputSizeMismatch && t.linkCursor == 22 &&
        t.outMem.read 4 == none) = true ∧
    nextWith (exec (.refs 1 0) (atOvershoot .truncate))
      (fun t => t.fsm == .done && t.resultLen == 5 && t.outMem.read 4 == some 0xDD &&
        t.outMem.read 5 == none) = true := by decide

/-- V23: a run that overlaps itself with a period of three. -/
theorem test_refs_overlap :
    nextWith (exec (.refs 5 2)
        { atBackref with outMem := bytesAt 0 [1, 2, 3], outputCursor := 3, decodedSize := 10 })
      (fun t => t.outMem == bytesAt 0 [1, 2, 3, 1, 2, 3, 1, 2, 3, 1] && t.fsm == .done) = true := by
  decide

/-- V19: the shortest extended run. -/
theorem test_refx :
    nextWith (engineStep atExtended)
      (fun t => t.outMem == bytesAt 0 (List.replicate 19 0x5A) && t.linkCursor == 22 &&
        t.byteChunkCursor == 23 && t.resultLen == 19) = true := by decide

/-- V22: a missing extension byte comes before an invalid distance. -/
theorem test_refx_missing_extension :
    nextWith (exec (.refx 5 0) { atExtended with byteChunkCursor := 23, outputCursor := 0 })
      (fun t => t.errCode == some .truncatedInput && t.linkCursor == 22) = true := by decide

/-! ## The host -/

/-- R122, V28: START after a call, and START while busy. -/
theorem test_start :
    nextWith (step { atError with host := ⟨[.start], none⟩ })
      (fun t => t.fsm == .header && t.errCode == none) = true ∧
    nextWith (step { atBackref with host := ⟨[.start], none⟩ }) (· = atBackref) = true := by decide

/-- R170, V29: reset while busy. -/
theorem test_reset_while_busy :
    nextWith (hostStep .reset atBackref) (fun t => t.fsm == .idle && t.inputLen == 0) = true := by
  decide

/-- V20 ends in ERROR with errCode 4; R179: polling, and taking the error. -/
theorem test_take_error :
    nextWith (step { atError with
        errCode := some .outputSizeMismatch, host := ⟨[.readErrCode], none⟩ })
      (fun t => t.host == ⟨[], some (.errCode 4)⟩ && t.fsm == .error) = true ∧
    nextWith (step { atError with host := ⟨[.poll], none⟩ })
      (fun t => t.host == ⟨[], some (.status false false true)⟩) = true := by decide

/-- R172, R175: the host's writes are steps of the machine, and refused while busy. -/
theorem test_host_writes :
    nextWith (step { State.reset with host := ⟨[.writeIn 7 8, .writeInputLen 24], none⟩ })
      (fun t => t.inMem == [(7, 8)] && t.host.moves == [.writeInputLen 24]) = true ∧
    nextWith (step { atHeader with host := ⟨[.writeInputLen 9], none⟩ }) (fun _ => true) =
      false := by decide

/-- R57: the result is read back in DONE. -/
theorem test_read_out :
    nextWith (hostStep (.readOut 7) atDone)
      (fun t => t.host.reading == some (.outByte 0x42)) = true := by decide

/-- R31: both memories of the reset state are canonical. -/
theorem test_reset_memories_wf :
    State.reset.inMem.wf = true ∧ State.reset.outMem.wf = true := by decide

/-! ## Witnesses: for every statement with hypotheses, values that meet them together, one for each
clause, at the boundary of its range where it has one -/

theorem witness_DecodeOfEncodeIsTheInstruction :
    [Instr.hdr 0 0 0, .lit 255, .refs 1 0, .refs 15 4095, .refx 4095 255].all
      Instr.wellFormed = true ∧
    controlBit (.lit 0) = some true ∧ controlBit (.refs 1 0) = some false ∧
    controlBit (.refx 0 0) = some false := by decide

theorem witness_TokenTakesExactlyItsEncoding :
    decodeToken true [9] [0x41, 7] = .ok (.lit 0x41, [9], [7]) ∧
    decodeToken false [0x40, 0x01, 9] [7] = .ok (.refs 4 1, [9], [7]) ∧
    decodeToken false [0x00, 0x1F] [0x16] = .ok (.refx 31 0x16, [], []) := ⟨rfl, rfl, rfl⟩

theorem witness_OpcodeMapSelectsTheDecodedKind :
    linkLengthField 0x0FFF = 0 ∧ linkLengthField 0x1000 ≠ 0 ∧
    decodeToken true (bytes16 0) [0] = .ok (.lit 0, bytes16 0, []) ∧
    decodeToken false (bytes16 0x1000) [0] = .ok (.refs 1 0, [], [0]) ∧
    decodeToken false (bytes16 0x0FFF) [0] = .ok (.refx 0xFFF 0, [], []) :=
  ⟨by decide, by decide, rfl, rfl, rfl⟩

theorem witness_EveryBitPatternDecodes : 16 ≤ (List.replicate 16 (0xFF : Byte)).length := by decide

/-- R66: the seam of the two forms, 17 and 18, and both ends. -/
theorem witness_EachRunLengthHasOneEncoding :
    (Instr.refs 1 4095).wellFormed = true ∧ producedBy (.refs 1 4095) = 3 ∧
    (Instr.refs 15 0).wellFormed = true ∧ producedBy (.refs 15 0) = 17 ∧
    producedBy (.refx 0 0) = 18 ∧ producedBy (.refx 4095 255) = 273 := by decide

/-- R71: each range's ends, and the first values outside. -/
theorem witness_NotationStandsForItsPieces :
    assemble (.refs 4095 3) = some (.refs 1 4095) ∧ assemble (.ref 0 17) = some (.refs 15 0) ∧
    assemble (.refx 4095 273) = some (.refx 4095 255) ∧
    assemble (.ref 0 18) = some (.refx 0 0) ∧ assemble (.refs 4096 3) = none ∧
    assemble (.refs 0 18) = none ∧ assemble (.refx 0 17) = none ∧ assemble (.ref 0 2) = none ∧
    assemble (.ref 0 274) = none := by decide

/-- The last used control bit and the first and last unused ones of P2's mask word. -/
theorem witness_CanonicalContainerLayout :
    [Instr.lit 0x41, .lit 0x42, .refs 4 1][2]? = some (.refs 4 1) ∧
    [Instr.lit 0x41, .lit 0x42, .refs 4 1].length ≤ 3 ∧ 31 < 32 * maskWordCount 3 ∧
    (∀ t ∈ [Instr.lit 0x41, .lit 0x42, .refs 4 1], controlBit t ≠ none) ∧
    (canonicalContainer 0 8 [.lit 0x41, .lit 0x42, .refs 4 1]).length < 2 ^ 32 := by decide

theorem witness_WideReadsAreBigEndian :
    Memory.read atHeader.inMem 20 = some 0x40 ∧ Memory.read atHeader.inMem 21 = some 0x01 ∧
    Memory.read atHeader.inMem 22 = some 0x41 ∧ Memory.read atHeader.inMem 23 = some 0x42 := by
  decide

/-- An unread bit; no word to load by one byte; a word that just fits. -/
theorem witness_NextBitTakesTheTopBit :
    atDispatch.maskBitsLeft ≠ 0 ∧
    (atAwait.maskBitsLeft = 0 ∧
      atAwait.maskCursor.toNat + 4 > ({ atAwait with inputLen := 19 } : State).inputLen.toNat) ∧
    (atAwait.maskCursor.toNat + 4 ≤ ({ atAwait with inputLen := 20 } : State).inputLen.toNat ∧
      readIn32 atAwait.inMem atAwait.maskCursor.toNat = .ok 0xC0000000) :=
  ⟨by decide, by decide, by decide, rfl⟩

theorem witness_NextByteAdvancesByOne :
    ({ atLiteral with byteChunkCursor := 24 } : State).byteChunkCursor.toNat + 1 >
      atLiteral.inputLen.toNat ∧
    ({ atLiteral with byteChunkCursor := 23 } : State).byteChunkCursor.toNat + 1 ≤
      atLiteral.inputLen.toNat ∧
    readIn atLiteral.inMem 23 = .ok 0x42 := ⟨by decide, by decide, rfl⟩

theorem witness_NextCodeAdvancesByTwo :
    ({ atBackref with linkCursor := 23 } : State).linkCursor.toNat + 2 >
      atBackref.inputLen.toNat ∧
    ({ atBackref with linkCursor := 22 } : State).linkCursor.toNat + 2 ≤
      atBackref.inputLen.toNat ∧
    readIn16 atBackref.inMem 22 = .ok 0x4142 := ⟨by decide, by decide, rfl⟩

/-- Sixteen bytes, and a size equal to the capacity. -/
theorem witness_HdrStartsTheCall :
    16 ≤ ({ atHeader with inputLen := 16 } : State).inputLen.toNat ∧
    (0x100000 : Word).toNat ≤ atHeader.config.outCapacity.toNat := by decide

theorem witness_HeaderStepParsesTheHeader :
    atHeader.fsm = .header ∧ ({ atHeader with inputLen := 15 } : State).inputLen.toNat < 16 ∧
    16 ≤ atHeader.inputLen.toNat ∧ readIn32 atHeader.inMem 4 = .ok 8 ∧
    readIn32 atHeader.inMem 8 = .ok 20 ∧ readIn32 atHeader.inMem 12 = .ok 22 ∧
    (8 : Word).toNat > (⟨7, .reject⟩ : Config).outCapacity.toNat ∧
    (8 : Word).toNat ≤ (⟨8, .reject⟩ : Config).outCapacity.toNat :=
  ⟨rfl, by decide, by decide, rfl, rfl, rfl, by decide, by decide⟩

theorem witness_HdrRaisesInOrder :
    (16 ≤ atHeader.inputLen.toNat ∧
      (0x100001 : Word).toNat > atHeader.config.outCapacity.toNat) ∧
    (∃ t, exec (.hdr 8 20 22) { atHeader with inputLen := 15 } = .next t ∧
      decide (t.fsm = .error) = true) ∧
    ∃ t, exec (.hdr 0x100001 20 22) atHeader = .next t ∧ decide (t.fsm = .error) = true :=
  ⟨by decide, nextWith_exists (by decide), nextWith_exists (by decide)⟩

/-- A step of each outcome: the loop, DONE and an error. -/
theorem witness_HdrFrame :
    (∃ t, exec (.hdr 8 20 22) atHeader = .next t ∧ decide (t.fsm = .awaitMaskBit) = true) ∧
    (∃ t, exec (.hdr 0 20 22) atHeader = .next t ∧ decide (t.fsm = .done) = true) ∧
    ∃ t, exec (.hdr 0x100001 20 22) atHeader = .next t ∧ decide (t.fsm = .error) = true :=
  ⟨nextWith_exists (by decide), nextWith_exists (by decide), nextWith_exists (by decide)⟩

/-- The last byte of the input, and the last byte of the output memory. -/
theorem witness_LitAppendsItsByte :
    ({ atLiteral with byteChunkCursor := 23 } : State).byteChunkCursor.toNat + 1 ≤
      atLiteral.inputLen.toNat ∧
    ({ atLiteral with outputCursor := 0xFFFFF } : State).outputCursor.toNat <
      atLiteral.config.outCapacity.toNat := by decide

theorem witness_LiteralStepCopiesTheNextByte :
    atLiteral.fsm = .literal ∧
    ({ atLiteral with byteChunkCursor := 24 } : State).byteChunkCursor.toNat + 1 >
      atLiteral.inputLen.toNat ∧
    atLiteral.byteChunkCursor.toNat + 1 ≤ atLiteral.inputLen.toNat ∧
    atLiteral.outputCursor.toNat < atLiteral.config.outCapacity.toNat ∧
    Memory.read atLiteral.inMem atLiteral.byteChunkCursor.toNat = some 0x41 ∧
    ({ atLiteral with outputCursor := 0xFFFFF } : State).outputCursor.toNat <
      atLiteral.config.outCapacity.toNat := by decide

theorem witness_LitRaisesTruncatedInput :
    ({ atLiteral with byteChunkCursor := 24 } : State).byteChunkCursor.toNat + 1 >
      atLiteral.inputLen.toNat ∧
    ∃ t, exec (.lit 0) { atLiteral with byteChunkCursor := 24 } = .next t ∧
      decide (t.fsm = .error) = true := ⟨by decide, nextWith_exists (by decide)⟩

theorem witness_LitFrame :
    (∃ t, exec (.lit 0x41) atLiteral = .next t ∧ decide (t.fsm = .awaitMaskBit) = true) ∧
    (∃ t, exec (.lit 0x41) { atLiteral with decodedSize := 1 } = .next t ∧
      decide (t.fsm = .done) = true) ∧
    ∃ t, exec (.lit 0) { atLiteral with byteChunkCursor := 24 } = .next t ∧
      decide (t.fsm = .error) = true :=
  ⟨nextWith_exists (by decide), nextWith_exists (by decide), nextWith_exists (by decide)⟩

/-- The last link code of the input, the largest legal distance, a run that ends at the size. -/
theorem witness_RefsAppendsItsRun :
    ({ atBackref with linkCursor := 22 } : State).linkCursor.toNat + 2 ≤
      atBackref.inputLen.toNat ∧
    (1 : BitVec 12).toNat < atBackref.outputCursor.toNat ∧
    atBackref.outputCursor.toNat + ((4 : BitVec 4).toNat + 2) ≤ atBackref.decodedSize.toNat ∧
    atBackref.decodedSize.toNat ≤ atBackref.config.outCapacity.toNat ∧
    (∀ a < atBackref.outputCursor.toNat, Memory.read atBackref.outMem a ≠ none) ∧
    atBackref.outMem.wf = true := by decide

theorem witness_RefxAppendsItsRun :
    atExtended.linkCursor.toNat + 2 ≤ atExtended.inputLen.toNat ∧
    atExtended.byteChunkCursor.toNat + 1 ≤ atExtended.inputLen.toNat ∧
    (0 : BitVec 12).toNat < atExtended.outputCursor.toNat ∧
    atExtended.outputCursor.toNat + ((0 : Byte).toNat + 18) ≤ atExtended.decodedSize.toNat ∧
    atExtended.decodedSize.toNat ≤ atExtended.config.outCapacity.toNat ∧
    (∀ a < atExtended.outputCursor.toNat, Memory.read atExtended.outMem a ≠ none) ∧
    atExtended.outMem.wf = true := by decide

/-- Each clause: no link code by one byte, a distance one too far, a run one too long. -/
theorem witness_RefsRaisesInOrder :
    ({ atBackref with linkCursor := 23 } : State).linkCursor.toNat + 2 >
      atBackref.inputLen.toNat ∧
    atBackref.linkCursor.toNat + 2 ≤ atBackref.inputLen.toNat ∧
    atBackref.outputCursor.toNat ≤ (2 : BitVec 12).toNat ∧
    (1 : BitVec 12).toNat < atBackref.outputCursor.toNat ∧
    atBackref.outputCursor.toNat + ((5 : BitVec 4).toNat + 2) > atBackref.decodedSize.toNat ∧
    atBackref.config.overshootPolicy = .reject ∧
    nextWith (exec (.refs 4 2) atBackref) (fun t => t.fsm == .error) = true := by decide

theorem witness_RefxRaisesInOrder :
    ({ atExtended with linkCursor := 22 } : State).linkCursor.toNat + 2 >
      atExtended.inputLen.toNat ∧
    atExtended.linkCursor.toNat + 2 ≤ atExtended.inputLen.toNat ∧
    ({ atExtended with byteChunkCursor := 23 } : State).byteChunkCursor.toNat + 1 >
      atExtended.inputLen.toNat ∧
    atExtended.byteChunkCursor.toNat + 1 ≤ atExtended.inputLen.toNat ∧
    atExtended.outputCursor.toNat ≤ (1 : BitVec 12).toNat ∧
    (0 : BitVec 12).toNat < atExtended.outputCursor.toNat ∧
    atExtended.outputCursor.toNat + ((1 : Byte).toNat + 18) > atExtended.decodedSize.toNat ∧
    atExtended.config.overshootPolicy = .reject ∧
    nextWith (exec (.refx 1 0) atExtended) (fun t => t.fsm == .error) = true := by decide

/-- A run copied in part, a run copied whole, and a run rejected. -/
theorem witness_RefsFrame :
    (∃ t, exec (.refs 4 1) atBackref = .next t ∧ decide (t.fsm = .done) = true) ∧
    (∃ t, exec (.refs 3 1) atBackref = .next t ∧ decide (t.fsm = .awaitMaskBit) = true) ∧
    (∃ t, exec (.refs 5 1) atBackref = .next t ∧ decide (t.fsm = .error) = true) ∧
    atBackref.copyCount (shortRun 5) = none ∧ atBackref.copyCount (shortRun 4) = some 6 ∧
    (atOvershoot .truncate).copyCount (shortRun 1) = some 1 :=
  ⟨nextWith_exists (by decide), nextWith_exists (by decide), nextWith_exists (by decide),
    by decide, by decide, by decide⟩

theorem witness_RefxFrame :
    (∃ t, exec (.refx 0 0) atExtended = .next t ∧ decide (t.fsm = .done) = true) ∧
    (∃ t, exec (.refx 0 0) { atExtended with decodedSize := 20 } = .next t ∧
      decide (t.fsm = .awaitMaskBit) = true) ∧
    (∃ t, exec (.refx 0 1) atExtended = .next t ∧ decide (t.fsm = .error) = true) ∧
    atExtended.copyCount (extendedRun 1) = none ∧
    atExtended.copyCount (extendedRun 0) = some 18 :=
  ⟨nextWith_exists (by decide), nextWith_exists (by decide), nextWith_exists (by decide),
    by decide, by decide⟩

theorem witness_ResolveSideEffects :
    (∃ t, atBackref.resolve = .ok () t ∧ decide (t.outputCursor = 8) = true) ∧
    (∃ t, atExtended.resolve = .ok () t ∧ decide (t.outputCursor = 19) = true) ∧
    atBackref.config.overshootPolicy = .reject :=
  ⟨okWith_exists (by decide), okWith_exists (by decide), rfl⟩

theorem witness_RunFollowsTheReplayLaw :
    ∃ t, atBackref.replay 1 6 = .ok () t ∧ decide (t.outputCursor = 8) = true :=
  okWith_exists (by decide)

theorem witness_RunRepeatsThePrecedingBytes :
    atBackref.copyCount 6 = some 6 ∧
    ∃ t, atBackref.replay 1 6 = .ok () t ∧ decide (t.outputCursor = 8) = true :=
  ⟨by decide, okWith_exists (by decide)⟩

theorem witness_TruncatePolicyCutsTheRun :
    (atOvershoot .truncate).config.overshootPolicy = .truncate ∧
    (atOvershoot .truncate).linkCursor.toNat + 2 ≤ (atOvershoot .truncate).inputLen.toNat ∧
    (0 : BitVec 12).toNat < (atOvershoot .truncate).outputCursor.toNat ∧
    (atOvershoot .truncate).outputCursor.toNat < (atOvershoot .truncate).decodedSize.toNat ∧
    (atOvershoot .truncate).decodedSize.toNat ≤
      (atOvershoot .truncate).config.outCapacity.toNat ∧
    (∀ a < (atOvershoot .truncate).outputCursor.toNat,
      Memory.read (atOvershoot .truncate).outMem a ≠ none) ∧
    (atOvershoot .truncate).outputCursor.toNat + ((1 : BitVec 4).toNat + 2) >
      (atOvershoot .truncate).decodedSize.toNat ∧
    (atOvershoot .truncate).byteChunkCursor.toNat + 1 ≤
      (atOvershoot .truncate).inputLen.toNat ∧
    (atOvershoot .truncate).outputCursor.toNat + ((0 : Byte).toNat + 18) >
      (atOvershoot .truncate).decodedSize.toNat := by decide

theorem witness_NothingIsWrittenAboveDecodedSize :
    atBackref.outputCursor.toNat < atBackref.decodedSize.toNat ∧
    ∃ t, exec (.refs 4 1) atBackref = .next t ∧ decide (t.fsm = .done) = true :=
  ⟨by decide, nextWith_exists (by decide)⟩

theorem witness_BackrefStepIsResolve : atBackref.fsm = .backref := rfl

theorem witness_AwaitStepLatchesTheBit :
    atAwait.fsm = .awaitMaskBit ∧ okWith atAwait.nextBit (fun _ => true) = true ∧
    ({ atAwait with inputLen := 19 } : State).nextBit =
      .raised .truncatedInput { atAwait with inputLen := 19 } := ⟨rfl, by decide, rfl⟩

theorem witness_DispatchStepFollowsTheLatch :
    atDispatch.fsm = .dispatch ∧ atDispatch.ctrlBit = true ∧
    ({ atDispatch with ctrlBit := false } : State).ctrlBit = false := by decide

theorem witness_WaitingLosesNoState :
    State.reset.busy = false ∧ atDone.busy = false ∧ atError.busy = false := by decide

/-- A step of each state, and each error. -/
theorem witness_EngineTransitions :
    nextWith (engineStep atDone) (· = atDone) = true ∧
    nextWith (engineStep atHeader) (fun t => t.fsm == .awaitMaskBit) = true ∧
    nextWith (engineStep atAwait) (fun t => t.fsm == .dispatch) = true ∧
    nextWith (engineStep atDispatch) (fun t => t.fsm == .literal) = true ∧
    nextWith (engineStep atLiteral) (fun t => t.fsm == .awaitMaskBit) = true ∧
    nextWith (engineStep atBackref) (fun t => t.fsm == .done) = true ∧
    nextWith (engineStep (atOvershoot .reject))
      (fun t => t.errCode == some .outputSizeMismatch) = true := by decide

/-- A header, a literal, a short and an extended back-reference, and a waiting host. -/
theorem witness_StepRunsTheDecodedInstruction :
    (atHeader.host.moves = [] ∧ atHeader.fsm = .header ∧ 16 ≤ atHeader.inputLen.toNat ∧
      readInBytes atHeader.inMem 4 12 = .ok [0, 0, 0, 8, 0, 0, 0, 20, 0, 0, 0, 22] ∧
      decodeHeaderFields [0, 0, 0, 8, 0, 0, 0, 20, 0, 0, 0, 22] = .ok (.hdr 8 20 22)) ∧
    (atLiteral.host.moves = [] ∧ atLiteral.fsm = .literal ∧
      atLiteral.byteChunkCursor.toNat + 1 ≤ atLiteral.inputLen.toNat ∧
      readInBytes atLiteral.inMem atLiteral.byteChunkCursor.toNat 1 = .ok [0x41] ∧
      decode (.token true [] [0x41]) = .ok (.lit 0x41)) ∧
    (atBackref.host.moves = [] ∧ atBackref.fsm = .backref ∧
      atBackref.linkCursor.toNat + 2 ≤ atBackref.inputLen.toNat ∧
      readInBytes atBackref.inMem atBackref.linkCursor.toNat 2 = .ok [0x40, 0x01] ∧
      needsExtension [0x40, 0x01] = false ∧
      decode (.token false [0x40, 0x01] []) = .ok (.refs 4 1)) ∧
    (readInBytes atExtended.inMem atExtended.linkCursor.toNat 2 = .ok [0, 0] ∧
      needsExtension [0, 0] = true ∧
      atExtended.byteChunkCursor.toNat + 1 ≤ atExtended.inputLen.toNat ∧
      readInBytes atExtended.inMem atExtended.byteChunkCursor.toNat 1 = .ok [0] ∧
      decode (.token false [0, 0] [0]) = .ok (.refx 0 0)) ∧
    [HostMove.wait, .start, .reset, .poll, .writeIn 0 0].all (fun m =>
      decide (({ atLiteral with host := ⟨[m], none⟩ } : State).host.moves = [m])) = true :=
  ⟨⟨rfl, rfl, by decide, rfl, rfl⟩, ⟨rfl, rfl, by decide, rfl, rfl⟩,
    ⟨rfl, rfl, by decide, rfl, by decide, rfl⟩, ⟨rfl, by decide, by decide, rfl, rfl⟩, by decide⟩

theorem witness_StartBeginsACallUnlessBusy :
    State.reset.fsm = .idle ∧ atDone.fsm = .done ∧ atError.fsm = .error ∧
    atBackref.fsm.inLoop = true ∧ atHeader.fsm = .header := by decide

/-- R57's clauses at the boundary of the result: address 8 is above it, 7 below. -/
theorem witness_HostAccessWindows :
    atBackref.busy = true ∧ atDone.busy = false ∧ atBackref.done = false ∧ atDone.done = true ∧
    atDone.resultLen.toNat ≤ (8 : Word).toNat ∧ (7 : Word).toNat < atDone.resultLen.toNat ∧
    Memory.read atDone.outMem (7 : Word).toNat = some 0x42 := by decide

theorem atBackref_loopInv : atBackref.LoopInv where
  maskBits := by decide
  maskLow := by decide
  maskFrom := by decide
  maskStep := by decide
  maskTo := by decide
  link := .inl rfl
  chunk := .inr (by decide)
  owed := by decide
  fits := by decide
  written := by unfold State.outWrittenTo; decide
  noError := rfl
  noResult := rfl

theorem atBackref_inv : atBackref.Inv where
  inWf := by decide
  outWf := by decide
  inSpace := by decide
  outSpace := by decide
  phase := atBackref_loopInv

theorem atHeader_inv : atHeader.Inv where
  inWf := by decide
  outWf := by decide
  inSpace := by decide
  outSpace := by decide
  phase := ⟨rfl, rfl⟩

theorem witness_StepKeepsTheInvariant :
    atBackref.Inv ∧ ∃ t, step atBackref = .next t ∧ decide (t.fsm = .done) = true :=
  ⟨atBackref_inv, nextWith_exists (by decide)⟩

/-- Before the first word is loaded, and between two bits of it. -/
theorem witness_StepKeepsTheMaskRegister :
    (atAwait.MaskInv ∧ atAwait.latchOk ∧
      ∃ t, step atAwait = .next t ∧ decide (t = atDispatch) = true) ∧
    atLiteral.MaskInv ∧ atLiteral.latchOk ∧
      ∃ t, step atLiteral = .next t ∧ decide (t.fsm = .awaitMaskBit) = true :=
  ⟨⟨fun _ => .inl (by decide), ⟨nofun, nofun⟩, nextWith_exists (by decide)⟩,
    fun _ => .inr ⟨by decide, by decide, 0xC0000000, rfl, by decide⟩,
    ⟨fun _ => rfl, nofun⟩, nextWith_exists (by decide)⟩

theorem witness_DoneIsReachedWithinBounds :
    atBackref.Inv ∧ atBackref.fsm.inLoop = true ∧
    ∃ t, engineStep atBackref = .next t ∧ decide (t.fsm = .done) = true :=
  ⟨atBackref_inv, rfl, nextWith_exists (by decide)⟩

theorem witness_CursorsNeverDecrease :
    atBackref.fsm.inLoop = true ∧
    ∃ t, engineStep atBackref = .next t ∧ decide (t.linkCursor = 22) = true :=
  ⟨rfl, nextWith_exists (by decide)⟩

theorem witness_EngineLeavesItsInputAlone :
    atLiteral.fsm ≠ .header ∧
    ∃ t, engineStep atLiteral = .next t ∧ decide (t.outputCursor = 1) = true :=
  ⟨by decide, nextWith_exists (by decide)⟩

theorem witness_OnlyStartAndResetLeaveTheResult :
    atDone.over = true ∧ atError.over = true ∧ HostMove.poll ≠ .start ∧ HostMove.poll ≠ .reset ∧
    (∃ t, hostStep .poll atDone = .next t ∧
      decide (t.host.reading = some (.status false true false)) = true) ∧
    ∃ t, hostStep .readErrCode atError = .next t ∧
      decide (t.host.reading = some (.errCode 3)) = true :=
  ⟨by decide, by decide, by decide, by decide, nextWith_exists (by decide),
    nextWith_exists (by decide)⟩

theorem witness_ConfigurationNeverChanges :
    ∃ t, step { atBackref with host := ⟨[.reset], none⟩ } = .next t ∧
      decide (t.fsm = .idle) = true := nextWith_exists (by decide)

theorem witness_OutputGrowsOnlyByAppending :
    (atAwait.fsm ≠ .literal ∧ atAwait.fsm ≠ .backref ∧
      ∃ t, engineStep atAwait = .next t ∧ decide (t.fsm = .dispatch) = true) ∧
    atBackref.fsm = .backref ∧
      ∃ t, engineStep atBackref = .next t ∧ decide (t.outputCursor = 8) = true :=
  ⟨⟨by decide, by decide, nextWith_exists (by decide)⟩, rfl, nextWith_exists (by decide)⟩

/-- R95: P2 after two literals and the third bit has consumed exactly those literals. -/
theorem witness_RegistersCountTheTokens :
    (∃ t, engineStep atHeader = .next t ∧ decide (t.fsm = .awaitMaskBit) = true) ∧
    atBackref.Inv ∧ atBackref.config.overshootPolicy = .reject ∧ atBackref.fsm.inLoop = true ∧
    atBackref.Consumed [.lit 0x41, .lit 0x42] ∧
    ∃ t, engineStep atBackref = .next t ∧ decide (t.fsm = .done) = true :=
  ⟨nextWith_exists (by decide), atBackref_inv, rfl, rfl,
    ⟨by decide, by decide, by decide, by decide, by decide, by decide⟩,
    nextWith_exists (by decide)⟩

theorem witness_BusyEngineAlwaysSteps :
    atBackref.Inv ∧ atBackref.inputLoaded ∧ atBackref.busy = true ∧ atHeader.Inv :=
  ⟨atBackref_inv, by unfold State.inputLoaded; decide, by decide, atHeader_inv⟩

theorem witness_EveryCallEnds : atHeader.fsm = .header ∧ atHeader.inputLoaded :=
  ⟨rfl, by unfold State.inputLoaded; decide⟩

theorem witness_CallComputesDecode : atHeader.fsm = .header ∧ atHeader.holdsInput p2Bytes :=
  ⟨rfl, by unfold State.holdsInput; decide⟩

/-- Two machines with the same input, one after a failed call, the other fresh. -/
theorem witness_CallDependsOnItsInputAlone :
    atError.busy = false ∧ ({ atHeader with fsm := .idle } : State).busy = false ∧
    hostStep .start atError = .next { atError with errCode := none, fsm := .header } ∧
    hostStep .start { atHeader with fsm := .idle } = .next atHeader ∧
    atError.config = atHeader.config ∧ atError.inputLen = atHeader.inputLen ∧
    (∀ a < atError.inputLen.toNat, atError.inMem.read a = atHeader.inMem.read a) ∧
    ∃ t, engineRun 1 atHeader = .next t ∧ decide (t.fsm = .awaitMaskBit) = true :=
  ⟨by decide, by decide, rfl, rfl, rfl, rfl, fun _ _ => rfl, nextWith_exists (by decide)⟩

end Sys2Proof.Machine
end

section
/-! SUPPORT. The proofs of the state family: what every exit of a token leaves unchanged, the steps
of the loop told apart by what they change, and from these the frames of the instructions, the
invariant of the machine, the mask register and the bounds of a call (R10, R12, R17, R18, R20). -/

namespace Sys2Proof.Machine

variable {s t u : State}

/-! ## The flags -/

theorem busy_eq (s : State) : s.busy = decide (s.fsm = .header ∨ s.fsm.inLoop = true) := by
  unfold State.busy
  cases s.fsm <;> rfl

theorem not_inLoop_of_not_busy (hb : s.busy = false) : s.fsm.inLoop = false := by
  rw [busy_eq, decide_eq_false_iff_not, not_or] at hb
  exact Bool.eq_false_iff.mpr hb.2

/-! ## Bounds of a cursor -/

/-- A cursor that passes the bounds check of a read may advance past the bytes read (R18, R45). -/
theorem cursorOk_add {c len : Word} {n : Nat} (hn : 0 < n) (h : c.toNat + n ≤ len.toNat) :
    cursorOk (c + BitVec.ofNat 32 n) c len :=
  .inr (by rw [cursor_add_toNat h]; omega)

theorem cursorOk_refl (c len : Word) : cursorOk c c len := .inl rfl

theorem cursorOk.trans {c' c start len : Word} (h' : cursorOk c' c len)
    (h : cursorOk c start len) : cursorOk c' start len := by
  obtain rfl | ⟨hlt', hle'⟩ := h'
  · exact h
  · obtain rfl | ⟨hlt, -⟩ := h
    · exact .inr ⟨hlt', hle'⟩
    · exact .inr ⟨by omega, hle'⟩

theorem cursorOk.le {c start len : Word} (h : cursorOk c start len) : start.toNat ≤ c.toNat := by
  obtain rfl | ⟨hlt, -⟩ := h
  · exact le_rfl
  · exact hlt.le

/-! ## Bytes appended to OUT -/

/-- What appending `n` bytes at `dst` does to OUT, whatever the bytes (R47, R109). -/
structure AppendSpec (cap : Word) (dst n : Nat) (out out' : Memory) : Prop where
  wf : out.wf = true → out'.wf = true
  space : (∀ c ∈ out, c.1 < cap.toNat) → ∀ c ∈ out', c.1 < cap.toNat
  outside : ∀ a, a < dst ∨ dst + n ≤ a → out'.read a = out.read a
  written : ∀ a, dst ≤ a → a < dst + n → out'.read a ≠ none
  room : n = 0 ∨ dst + n ≤ cap.toNat

theorem appendSpec_write {cap : Word} {dst : Nat} (out : Memory) (b : Byte)
    (h : dst < cap.toNat) : AppendSpec cap dst 1 out (out.write dst b) where
  wf := Memory.wf_write dst b
  space := Memory.space_write b h
  outside a ha := Memory.read_write_ne out b (by omega)
  written a _ _ := by
    obtain rfl : a = dst := by omega
    simp
  room := .inr h

theorem CopySpec.appendSpec {cap : Word} {src dst n : Nat} {out out' : Memory}
    (h : CopySpec cap src dst n out out') : AppendSpec cap dst n out out' where
  wf := h.wf
  space := h.space
  outside a ha := ha.elim (h.below a) (h.above a)
  written a hle hlt := by
    obtain ⟨i, rfl⟩ := Nat.exists_eq_add_of_le hle
    exact h.written i (by omega)
  room := by
    rcases Nat.eq_zero_or_pos n with hn | hn
    · exact .inl hn
    · have := h.room (n - 1) (by omega)
      omega

/-- The output cursor past appended bytes does not wrap (R18). -/
theorem AppendSpec.cursor {cap c : Word} {n : Nat} {out out' : Memory}
    (h : AppendSpec cap c.toNat n out out') :
    (c + BitVec.ofNat 32 n).toNat = c.toNat + n := by
  obtain rfl | hroom := h.room
  · simp
  · exact cursor_add_toNat hroom

/-! ## The terminal test -/

theorem State.terminalTest_fsm_ne_error (s : State) : s.terminalTest.fsm ≠ .error := by
  unfold State.terminalTest
  split <;> exact nofun

theorem State.terminalTest_resultLen (h : s.terminalTest.fsm = .awaitMaskBit) :
    s.terminalTest.resultLen = s.resultLen := by
  unfold State.terminalTest at h ⊢
  split at h
  · cases h
  · rename_i more
    rw [if_neg more]
    rfl

/-! ## The exits of a token -/

/-- The state with its two stream cursors elsewhere. -/
def State.atStreams (s : State) (link chunk : Word) : State :=
  { s with linkCursor := link, byteChunkCursor := chunk }

/-- The ways a token ends: the error entry, or `n` bytes appended and the terminal test, where `run`
is the number of bytes it is to append, if any. `link` and `chunk` are the stream cursors
it leaves. -/
inductive TokenExit (s : State) (run : Option Nat) (link chunk : Word) : State → Prop where
  | raised (e : ErrorKind) : TokenExit s run link chunk ((s.atStreams link chunk).raise e)
  | appended (n : Nat) (out : Memory) (count : run = some n)
      (grown : AppendSpec s.config.outCapacity s.outputCursor.toNat n s.outMem out) :
      TokenExit s run link chunk ((s.atStreams link chunk).appended out n).terminalTest

/-- A run with its terminal test is an exit of a token (R105 to R109). -/
theorem tokenExit_of_replay {d : BitVec 12} {n : Nat} {link chunk : Word}
    (h : (((s.atStreams link chunk).replay d n).bind fun _ v => .ok () v.terminalTest).finish
      = .next t) : TokenExit s (s.copyCount n) link chunk t := by
  obtain ⟨v, hv, rfl⟩ | ⟨e, -, rfl⟩ := replay_terminal_next h
  · obtain ⟨-, k, out, hk, rfl, spec⟩ := State.replay_ok hv
    exact .appended k out hk spec.appendSpec
  · exact .raised e

/-- The exits of `LIT` (R126): one byte to append; on an error the chunk cursor has not moved. -/
theorem execLit_exit {b : Byte} (h : execLit b s = .next t) :
    ∃ chunk, (t.fsm = .error → chunk = s.byteChunkCursor) ∧
      TokenExit s (some 1) s.linkCursor chunk t := by
  rw [execLit_eq] at h
  split at h
  · split at h
    · rename_i room
      cases h
      exact ⟨s.byteChunkCursor + 1, fun he => absurd he (State.terminalTest_fsm_ne_error _),
        .appended 1 _ rfl (appendSpec_write _ _ room)⟩
    · cases h
  · cases h
    exact ⟨s.byteChunkCursor, fun _ => rfl, .raised _⟩

/-- The exits of `REFS` (R101): the chunk cursor has not moved. -/
theorem execRefs_exit {lf : BitVec 4} {d : BitVec 12} (h : execRefs lf d s = .next t) :
    ∃ link, TokenExit s (s.copyCount (shortRun lf)) link s.byteChunkCursor t := by
  rw [execRefs_eq] at h
  split at h
  · exact ⟨_, tokenExit_of_replay h⟩
  · cases h
    exact ⟨s.linkCursor, .raised _⟩

/-- The exits of `REFX` (R102). -/
theorem execRefx_exit {d : BitVec 12} {e : Byte} (h : execRefx d e s = .next t) :
    ∃ link chunk, TokenExit s (s.copyCount (extendedRun e)) link chunk t := by
  rw [execRefx_eq] at h
  split at h
  · split at h
    · exact ⟨_, _, tokenExit_of_replay h⟩
    · cases h
      exact ⟨s.advanceLink.linkCursor, s.byteChunkCursor, .raised _⟩
  · cases h
    exact ⟨s.linkCursor, s.byteChunkCursor, .raised _⟩

/-- What every exit of a token leaves unchanged, and where it leaves the stream cursors (R10, R101,
R102, R126, R148). -/
structure TokenFrame (s : State) (run : Option Nat) (link chunk : Word) (t : State) : Prop where
  config : t.config = s.config
  inMem : t.inMem = s.inMem
  inputLen : t.inputLen = s.inputLen
  host : t.host = s.host
  decodedSize : t.decodedSize = s.decodedSize
  linkTableOffset : t.linkTableOffset = s.linkTableOffset
  byteChunkOffset : t.byteChunkOffset = s.byteChunkOffset
  maskCursor : t.maskCursor = s.maskCursor
  maskWord : t.maskWord = s.maskWord
  maskBitsLeft : t.maskBitsLeft = s.maskBitsLeft
  linkCursor : t.linkCursor = link
  byteChunkCursor : t.byteChunkCursor = chunk
  ctrlBit : t.ctrlBit = s.ctrlBit
  errCode : t.fsm ≠ .error → t.errCode = s.errCode
  resultLen : t.fsm = .awaitMaskBit → t.resultLen = s.resultLen
  onError : t.fsm = .error → t.outputCursor = s.outputCursor ∧ t.outMem = s.outMem
  noRun : run = none → ∀ a, t.outMem.read a = s.outMem.read a
  outside : ∀ n, run = some n → ∀ a, a < s.outputCursor.toNat ∨ s.outputCursor.toNat + n ≤ a →
    t.outMem.read a = s.outMem.read a

theorem TokenExit.frame {run : Option Nat} {link chunk : Word} (h : TokenExit s run link chunk t) :
    TokenFrame s run link chunk t := by
  cases h with
  | raised e =>
    constructor
    case errCode => exact fun hne => absurd rfl hne
    case resultLen => exact nofun
    case onError => exact fun _ => ⟨rfl, rfl⟩
    case noRun => exact fun _ _ => rfl
    case outside => exact fun _ _ _ _ => rfl
    all_goals rfl
  | appended n out count grown =>
    constructor
    case resultLen => exact State.terminalTest_resultLen
    case onError => exact fun he => absurd he (State.terminalTest_fsm_ne_error _)
    case noRun => exact fun hn => absurd (count.symm.trans hn) nofun
    case outside =>
      intro k hk a ha
      obtain rfl : n = k := Option.some.inj (count.symm.trans hk)
      rw [State.terminalTest_outMem]
      exact grown.outside a ha
    all_goals simp [State.atStreams]

/-- The output cursor after a token is where the appended bytes end (R109). -/
theorem TokenExit.outputCursor_le {run : Option Nat} {link chunk : Word}
    (h : TokenExit s run link chunk t) : s.outputCursor.toNat ≤ t.outputCursor.toNat := by
  cases h with
  | raised e => exact le_rfl
  | appended n out count grown =>
    have hc := grown.cursor
    rw [State.terminalTest_outputCursor]
    change _ ≤ (s.outputCursor + BitVec.ofNat 32 n).toNat
    omega

/-! ## The moves of the loop -/

/-- A step of the engine in the loop, by what it changes: the mask registers, the state register
alone, or the end of a call or of a token (R121). -/
inductive LoopMove (s : State) : State → Prop where
  | shifts (left : s.maskBitsLeft ≠ 0) :
      LoopMove s ((s.shiftMask.latch s.maskWord.msb).goto .dispatch)
  | refills (w : Word) (bound : s.maskCursor.toNat + 4 ≤ s.inputLen.toNat)
      (read : readIn32 s.inMem s.maskCursor.toNat = .ok w) :
      LoopMove s (((s.loadMask w).shiftMask.latch w.msb).goto .dispatch)
  | chooses (f : Fsm) (bit : f = .literal ∧ s.ctrlBit = true ∨ f = .backref ∧ s.ctrlBit = false) :
      LoopMove s (s.goto f)
  | exits (run : Option Nat) (link chunk : Word) (t : State)
      (linkOk : cursorOk link s.linkCursor s.inputLen)
      (chunkOk : cursorOk chunk s.byteChunkCursor s.inputLen)
      (fits : ∀ n, run = some n → s.outputCursor.toNat < s.decodedSize.toNat →
        s.outputCursor.toNat + n ≤ s.decodedSize.toNat)
      (exit : TokenExit s run link chunk t) : LoopMove s t

/-- The run of a back-reference is tried with the stream cursors moved within the input. -/
theorem BackrefRead.streams {d : BitVec 12} {n : Nat} {i : Instr} (h : BackrefRead s u d n i) :
    ∃ link chunk, cursorOk link s.linkCursor s.inputLen ∧
      cursorOk chunk s.byteChunkCursor s.inputLen ∧ u = s.atStreams link chunk := by
  cases h with
  | short code bound _ _ =>
    exact ⟨_, _, cursorOk_add (by decide) bound, cursorOk_refl .., rfl⟩
  | extended code e bound _ _ bound' _ =>
    exact ⟨_, _, cursorOk_add (by decide) bound, cursorOk_add (by decide) bound', rfl⟩

theorem LoopMove.raise (e : ErrorKind) : LoopMove s (s.raise e) :=
  .exits none _ _ _ (cursorOk_refl ..) (cursorOk_refl ..) nofun (.raised e)

theorem EngineMove.loopMove (h : EngineMove s t) (hl : s.fsm.inLoop = true) : LoopMove s t := by
  cases h with
  | waits idle => exact absurd (hl.symm.trans (not_inLoop_of_not_busy idle)) nofun
  | headerShort phase | headerTooLarge phase | headerRead phase =>
    rw [phase] at hl
    cases hl
  | maskMissing | literalMissing | codeMissing => exact .raise _
  | maskShift phase left => exact .shifts left
  | maskRefill phase empty bound w read => exact .refills w bound read
  | dispatchLiteral phase bit => exact .chooses _ (.inl ⟨rfl, bit⟩)
  | dispatchBackref phase bit => exact .chooses _ (.inr ⟨rfl, bit⟩)
  | literal phase bound b read room fetched =>
    refine .exits (some 1) _ _ _ (cursorOk_refl ..) (cursorOk_add (by decide) bound) ?_
      (.appended 1 _ rfl (appendSpec_write _ b room))
    rintro _ ⟨⟩ owed
    exact owed
  | extensionMissing phase code bound read form bound' =>
    exact .exits none _ _ _ (cursorOk_add (by decide) bound) (cursorOk_refl ..) nofun (.raised _)
  | runRaised phase u d n i e read run =>
    obtain ⟨link, chunk, hlink, hchunk, rfl⟩ := read.streams
    exact .exits none link chunk _ hlink hchunk nofun (.raised e)
  | run phase u v d n i read run fetched =>
    obtain ⟨link, chunk, hlink, hchunk, rfl⟩ := read.streams
    refine .exits (s.copyCount n) link chunk _ hlink hchunk
      (fun k hk owed => (State.copyCount_le hk).2 owed.le) (tokenExit_of_replay (d := d) ?_)
    rw [run]
    rfl

/-- A finished call leaves the mask registers and INPUT_LEN as the loop had them (R129). -/
theorem LoopMove.mask_of_done (h : LoopMove s t) (hd : t.fsm = .done) :
    t.maskCursor = s.maskCursor ∧ t.maskBitsLeft = s.maskBitsLeft ∧ t.inputLen = s.inputLen := by
  cases h with
  | shifts | refills => cases hd
  | chooses f bit => obtain ⟨rfl, -⟩ | ⟨rfl, -⟩ := bit <;> cases hd
  | exits run link chunk t linkOk chunkOk fits exit =>
    exact ⟨exit.frame.maskCursor, exit.frame.maskBitsLeft, exit.frame.inputLen⟩

/-! ## The mask register -/

/-- One unread bit fewer is one consumed bit more (R91). -/
theorem maskBits_pred {m : BitVec 6} (hm : m ≠ 0) (hle : m.toNat ≤ 32) :
    (m - 1).toNat ≤ 32 ∧ 32 - (m - 1).toNat = 32 - m.toNat + 1 := by
  have hpos : m.toNat ≠ 0 := fun h0 => hm (BitVec.eq_of_toNat_eq h0)
  have hpred : (m - 1).toNat = m.toNat - 1 := by bv_omega
  omega

/-- The mask register is still what is left of its word after a shift (R12, R91). -/
theorem shiftLeft_consumed {w v : Word} {m : BitVec 6} (hm : m ≠ 0) (hle : m.toNat ≤ 32)
    (hw : v = w <<< (32 - m.toNat)) :
    (m - 1).toNat ≤ 32 ∧ v <<< 1 = w <<< (32 - (m - 1).toNat) := by
  obtain ⟨hbits, hconsumed⟩ := maskBits_pred hm hle
  rw [hconsumed, hw, BitVec.shiftLeft_add]
  exact ⟨hbits, rfl⟩

theorem LoopMove.keeps_mask (h : LoopMove s t) (hl : s.fsm.inLoop = true) (hm : s.MaskInv) :
    t.MaskInv := by
  have loaded := hm hl
  cases h with
  | shifts left =>
    intro _
    obtain ⟨-, empty, -⟩ | ⟨hfrom, hbits, w, hread, hword⟩ := loaded
    · exact absurd empty left
    · obtain ⟨hbits', hword'⟩ := shiftLeft_consumed left hbits hword
      exact .inr ⟨hfrom, hbits', w, hread, hword'⟩
  | refills w bound read =>
    intro _
    have hfrom : 16 ≤ s.maskCursor.toNat := by
      obtain ⟨hat, -⟩ | ⟨hfrom, -⟩ := loaded <;> omega
    have hcursor : (s.maskCursor + BitVec.ofNat 32 4).toNat = s.maskCursor.toNat + 4 :=
      cursor_add_toNat bound
    obtain ⟨hbits, hword⟩ := shiftLeft_consumed (m := BitVec.ofNat 6 32) (w := w) (v := w)
      (by decide) (by decide) (by simp)
    refine .inr ⟨?_, hbits, w, ?_, hword⟩
    · change 20 ≤ (s.maskCursor + BitVec.ofNat 32 4).toNat
      omega
    · change readIn32 s.inMem ((s.maskCursor + BitVec.ofNat 32 4).toNat - 4) = _
      rw [hcursor, Nat.add_sub_cancel]
      exact read
  | chooses f bit => exact fun _ => loaded
  | exits run link chunk t linkOk chunkOk fits exit =>
    intro _
    rw [exit.frame.maskCursor, exit.frame.maskBitsLeft, exit.frame.maskWord, exit.frame.inMem]
    exact loaded

/-- No exit of a token is a state DISPATCH chooses (R128, R148). -/
theorem State.terminalTest_latchOk (s : State) : s.terminalTest.latchOk := by
  unfold State.terminalTest
  split <;> exact ⟨nofun, nofun⟩

theorem LoopMove.latchOk (h : LoopMove s t) : t.latchOk := by
  cases h with
  | shifts | refills => exact ⟨nofun, nofun⟩
  | chooses f bit =>
    obtain ⟨rfl, hc⟩ | ⟨rfl, hc⟩ := bit
    · exact ⟨fun _ => hc, nofun⟩
    · exact ⟨nofun, fun _ => hc⟩
  | exits run link chunk t linkOk chunkOk fits exit =>
    cases exit with
    | raised e => exact ⟨nofun, nofun⟩
    | appended n out count grown => exact State.terminalTest_latchOk _

/-- Outside the loop the mask register and the latch are bound by nothing. -/
theorem maskRegister_of_not_inLoop (hl : s.fsm.inLoop = false) : s.MaskInv ∧ s.latchOk := by
  refine ⟨fun h => absurd (h.symm.trans hl) nofun, fun hf => ?_, fun hf => ?_⟩ <;>
  · rw [hf] at hl
    cases hl

theorem EngineMove.keeps_maskRegister (h : EngineMove s t) (hm : s.MaskInv) (hc : s.latchOk) :
    t.MaskInv ∧ t.latchOk := by
  have inLoop : s.fsm.inLoop = true → t.MaskInv ∧ t.latchOk := fun hl =>
    ⟨(h.loopMove hl).keeps_mask hl hm, (h.loopMove hl).latchOk⟩
  cases h with
  | waits => exact ⟨hm, hc⟩
  | headerShort | headerTooLarge => exact maskRegister_of_not_inLoop rfl
  | headerRead phase len size link chunk =>
    refine ⟨fun _ => .inl ?_, State.terminalTest_latchOk _⟩
    simp only [State.terminalTest_maskCursor, State.terminalTest_maskBitsLeft,
      State.terminalTest_maskWord]
    exact ⟨rfl, rfl, rfl⟩
  | _ phase => exact inLoop (by rw [phase]; rfl)

theorem HostStepped.keeps_maskRegister (h : HostStepped s t) (hm : s.MaskInv) (hc : s.latchOk) :
    t.MaskInv ∧ t.latchOk := by
  cases h with
  | loaded a b idle => exact maskRegister_of_not_inLoop (not_inLoop_of_not_busy (s := s) idle)
  | lengthWritten len idle =>
    exact maskRegister_of_not_inLoop (not_inLoop_of_not_busy (s := s) idle)
  | started | wasReset => exact maskRegister_of_not_inLoop rfl
  | ignored | answered => exact ⟨hm, hc⟩
  | engine t move => exact move.keeps_maskRegister hm hc

/-! ## The invariant of the machine -/

theorem phaseInv_of_inLoop (hl : s.fsm.inLoop = true) : s.PhaseInv ↔ s.LoopInv := by
  unfold State.PhaseInv
  cases hf : s.fsm <;> simp_all [Fsm.inLoop]

theorem phaseInv_of_header (hf : s.fsm = .header) :
    s.PhaseInv ↔ s.errCode = none ∧ s.resultLen = 0 := by
  simp only [State.PhaseInv, hf]

theorem phaseInv_of_done (hf : s.fsm = .done) : s.PhaseInv ↔ s.DoneInv := by
  simp only [State.PhaseInv, hf]

/-- The phase says nothing of the host's side. -/
theorem State.PhaseInv.withHost (h : s.PhaseInv) (p : HostPort) :
    State.PhaseInv { s with host := p } := by
  unfold State.PhaseInv at h ⊢
  cases hf : s.fsm <;> simp only [hf] at h ⊢
  case idle | header | error => exact h
  case done => exact { h with }
  all_goals exact { h with }

/-- Outside a call the phase says nothing of the input. -/
theorem State.PhaseInv.withInput (h : s.PhaseInv) (hb : s.busy = false) (m : Memory) (len : Word) :
    State.PhaseInv { s with inMem := m, inputLen := len } := by
  unfold State.busy at hb
  unfold State.PhaseInv at h ⊢
  cases hf : s.fsm <;> simp only [hf] at h hb ⊢
  case idle | error => exact h
  case done => exact { h with }
  all_goals cases hb

/-- The terminal test leads to DONE or back to the loop, each with its part of the invariant, from
a state that has produced no more than it owes (R128). -/
theorem phaseInv_terminalTest (noError : s.errCode = none)
    (le : s.outputCursor.toNat ≤ s.decodedSize.toNat)
    (fits : s.decodedSize.toNat ≤ s.config.outCapacity.toNat)
    (written : s.outWrittenTo s.outputCursor.toNat)
    (more : s.outputCursor.toNat < s.decodedSize.toNat → s.LoopInv) : s.terminalTest.PhaseInv := by
  by_cases h : s.outputCursor.toNat < s.decodedSize.toNat
  · rw [State.terminalTest_more h]
    exact { more h with }
  · have all : s.outputCursor = s.decodedSize := BitVec.eq_of_toNat_eq (by omega)
    rw [State.terminalTest_done (by omega)]
    exact ⟨all, fits, written, noError, rfl⟩

/-- A step that leaves both memories and the configuration alone keeps what the invariant says of
them. -/
theorem State.Inv.of_same_memories (h : s.Inv) (config : t.config = s.config)
    (inMem : t.inMem = s.inMem) (outMem : t.outMem = s.outMem) (phase : t.PhaseInv) : t.Inv where
  inWf := inMem ▸ h.inWf
  outWf := outMem ▸ h.outWf
  inSpace := inMem ▸ h.inSpace
  outSpace := by rw [outMem, config]; exact h.outSpace
  phase := phase

theorem State.Inv.withHost (h : s.Inv) (p : HostPort) : State.Inv { s with host := p } :=
  h.of_same_memories rfl rfl rfl (h.phase.withHost p)

/-- A left shift by one adds a 0 below the low `i` bits that are 0 (R12). -/
theorem shiftLeft_one_low {w : Word} {i : Nat} (hi : i < 32) (h : w.toNat % 2 ^ i = 0) :
    (w <<< 1).toNat % 2 ^ (i + 1) = 0 := by
  obtain ⟨k, hk⟩ := Nat.dvd_of_mod_eq_zero h
  rw [BitVec.toNat_shiftLeft, Nat.mod_mod_of_dvd _ (Nat.pow_dvd_pow 2 hi), hk, Nat.shiftLeft_eq,
    Nat.pow_succ, Nat.mul_right_comm]
  exact Nat.mul_mod_right ..

/-- What taking a bit of a word with `m` unread bits leaves of R12. -/
theorem maskLow_shift {w : Word} {m : BitVec 6} (hm : m ≠ 0) (hle : m.toNat ≤ 32)
    (h : w.toNat % 2 ^ (32 - m.toNat) = 0) :
    (m - 1).toNat ≤ 32 ∧ (w <<< 1).toNat % 2 ^ (32 - (m - 1).toNat) = 0 := by
  obtain ⟨hbits, hconsumed⟩ := maskBits_pred hm hle
  rw [hconsumed]
  exact ⟨hbits, shiftLeft_one_low (by omega) h⟩

theorem State.LoopInv.shifts (h : s.LoopInv) (left : s.maskBitsLeft ≠ 0) : s.shiftMask.LoopInv := by
  obtain ⟨hbits, hlow⟩ := maskLow_shift left h.maskBits h.maskLow
  exact { h with maskBits := hbits, maskLow := hlow }

theorem State.LoopInv.loads (h : s.LoopInv) (w : Word)
    (bound : s.maskCursor.toNat + 4 ≤ s.inputLen.toNat) : (s.loadMask w).LoopInv := by
  have hcursor : (s.loadMask w).maskCursor.toNat = s.maskCursor.toNat + 4 :=
    cursor_add_toNat bound
  have hfrom := h.maskFrom
  have hstep := h.maskStep
  exact { h with
    maskBits := (by decide : (BitVec.ofNat 6 32).toNat ≤ 32)
    maskLow := Nat.mod_one _
    maskFrom := by omega
    maskStep := by omega
    maskTo := by rw [hcursor]; exact bound }

/-- An exit of a token whose run stays within `decodedSize` keeps the invariant (R18, R129). -/
theorem TokenExit.inv {run : Option Nat} {link chunk : Word} (h : TokenExit s run link chunk t)
    (hs : s.Inv) (hl : s.LoopInv) (linkOk : cursorOk link s.linkCursor s.inputLen)
    (chunkOk : cursorOk chunk s.byteChunkCursor s.inputLen)
    (fits : ∀ n, run = some n → s.outputCursor.toNat < s.decodedSize.toNat →
      s.outputCursor.toNat + n ≤ s.decodedSize.toNat) : t.Inv := by
  cases h with
  | raised e => exact hs.of_same_memories rfl rfl rfl ⟨nofun, rfl⟩
  | appended n out count grown =>
    have hcursor : ((s.atStreams link chunk).appended out n).outputCursor.toNat
        = s.outputCursor.toNat + n := grown.cursor
    have hle := fits n count hl.owed
    have hwritten : ((s.atStreams link chunk).appended out n).outWrittenTo
        (s.outputCursor.toNat + n) := by
      intro a ha
      by_cases hold : a < s.outputCursor.toNat
      · exact grown.outside a (.inl hold) ▸ hl.written a hold
      · exact grown.written a (by omega) ha
    refine
      { inWf := by rw [State.terminalTest_inMem]; exact hs.inWf
        outWf := by rw [State.terminalTest_outMem]; exact grown.wf hs.outWf
        inSpace := by rw [State.terminalTest_inMem]; exact hs.inSpace
        outSpace := by
          rw [State.terminalTest_outMem, State.terminalTest_config]
          exact grown.space hs.outSpace
        phase := phaseInv_terminalTest hl.noError (by rw [hcursor]; exact hle) hl.fits
          (by rw [hcursor]; exact hwritten) fun owed => ?_ }
    exact { hl with
      link := linkOk.trans hl.link
      chunk := chunkOk.trans hl.chunk
      owed := owed
      written := by rw [hcursor]; exact hwritten }

theorem LoopMove.inv (h : LoopMove s t) (hf : s.fsm.inLoop = true) (hs : s.Inv) : t.Inv := by
  have hl := (phaseInv_of_inLoop hf).mp hs.phase
  cases h with
  | shifts left => exact hs.of_same_memories rfl rfl rfl { hl.shifts left with }
  | refills w bound read =>
    have full : (s.loadMask w).maskBitsLeft ≠ 0 := (by decide : BitVec.ofNat 6 32 ≠ 0)
    exact hs.of_same_memories rfl rfl rfl { (hl.loads w bound).shifts full with }
  | chooses f bit =>
    have hf' : f.inLoop = true := by obtain ⟨rfl, -⟩ | ⟨rfl, -⟩ := bit <;> rfl
    exact hs.of_same_memories rfl rfl rfl
      ((phaseInv_of_inLoop (s := s.goto f) hf').mpr { hl with })
  | exits run link chunk t linkOk chunkOk fits exit => exact exit.inv hs hl linkOk chunkOk fits

/-- The registers a header leaves meet the invariant (R32, R80 to R83). -/
theorem initCall_phaseInv {size link chunk : Word} (noError : s.errCode = none)
    (noResult : s.resultLen = 0) (len : 16 ≤ s.inputLen.toNat)
    (fits : size.toNat ≤ s.config.outCapacity.toNat) :
    (s.setHeader size link chunk).initCall.terminalTest.PhaseInv :=
  phaseInv_terminalTest noError (Nat.zero_le _) fits (fun _ => nofun) fun owed =>
    { maskBits := Nat.zero_le _
      maskLow := Nat.zero_mod _
      maskFrom := le_rfl
      maskStep := (by decide : (BitVec.ofNat 32 16).toNat % 4 = 0)
      maskTo := len
      link := cursorOk_refl ..
      chunk := cursorOk_refl ..
      owed := owed
      fits := fits
      written := fun _ => nofun
      noError := noError
      noResult := noResult }

theorem EngineMove.inv (h : EngineMove s t) (hs : s.Inv) : t.Inv := by
  have inLoop : s.fsm.inLoop = true → t.Inv := fun hl => (h.loopMove hl).inv hl hs
  cases h with
  | waits => exact hs
  | headerShort | headerTooLarge => exact hs.of_same_memories rfl rfl rfl ⟨nofun, rfl⟩
  | headerRead phase len size link chunk _ _ _ fits =>
    obtain ⟨noError, noResult⟩ := (phaseInv_of_header phase).mp hs.phase
    exact hs.of_same_memories (State.terminalTest_config _) (State.terminalTest_inMem _)
      (State.terminalTest_outMem _) (initCall_phaseInv noError noResult len fits)
  | _ phase => exact inLoop (by rw [phase]; rfl)

theorem HostStepped.inv (h : HostStepped s t) (hs : s.Inv) : t.Inv := by
  cases h with
  | loaded a b idle =>
    exact { hs with
      inWf := Memory.wf_write _ b hs.inWf
      inSpace := Memory.space_write b a.isLt hs.inSpace
      phase := hs.phase.withInput idle _ s.inputLen }
  | lengthWritten len idle =>
    exact hs.of_same_memories rfl rfl rfl (hs.phase.withInput idle s.inMem len)
  | started => exact hs.of_same_memories rfl rfl rfl ⟨rfl, rfl⟩
  | ignored => exact hs
  | wasReset => exact ⟨rfl, rfl, nofun, nofun, rfl, rfl⟩
  | answered r => exact hs.withHost _
  | engine t move => exact move.inv hs

/-! ## The result of a call -/

/-- Written bytes of OUT can be read. -/
theorem readOutBytes_of_written {n : Nat} (h : s.outWrittenTo n) :
    ∃ bs, readOutBytes s.outMem 0 n = .ok bs ∧ bs.length = n := by
  refine ⟨(List.range n).map fun a => (s.outMem.read a).getD 0,
    readOutBytes_eq_ok.mpr ⟨by simp, fun a ha => ?_⟩, by simp⟩
  obtain ⟨b, hb⟩ := Option.ne_none_iff_exists'.mp (h a ha)
  simp [hb, ha]

/-- A call that is done answers `decodedSize` bytes (R25, R129). -/
theorem State.DoneInv.callResult (h : s.DoneInv) (hf : s.fsm = .done) :
    ∃ bs, s.callResult = some (.ok bs) ∧ bs.length = s.decodedSize.toNat := by
  obtain ⟨bs, hread, hlen⟩ := readOutBytes_of_written h.written
  refine ⟨bs, ?_, by rw [hlen, h.all]⟩
  rw [h.all, ← h.result] at hread
  simp only [State.callResult, hf, hread]

/-! ## The obligations -/

/-- Settles O45: by the inversion of the step; a host's move changes no register of a call. -/
theorem stepKeepsTheInvariant : Obligations.StepKeepsTheInvariant := by
  intro s t hs h
  obtain ⟨-, move⟩ | ⟨m, ms, -, move⟩ := step_next h
  · exact move.inv hs
  · exact move.inv (hs.withHost ⟨ms, s.host.reading⟩)

/-- Settles O46: by the inversion of the step; outside the loop there is nothing to keep. -/
theorem stepKeepsTheMaskRegister : Obligations.StepKeepsTheMaskRegister := by
  intro s t hm hc h
  obtain ⟨-, move⟩ | ⟨m, ms, -, move⟩ := step_next h
  · exact move.keeps_maskRegister hm hc
  · exact move.keeps_maskRegister (s := s.setMoves ms) hm hc

/-- Settles O17: by the three exits of `HDR`. -/
theorem hdrFrame : Obligations.HdrFrame := by
  intro size link chunk s t h
  change execHdr size link chunk s = .next t at h
  rw [execHdr_eq] at h
  split at h
  · cases h
    simp
  · split at h
    · cases h
      simp
    · cases h
      refine ⟨by simp, by simp, by simp, by simp, by simp, by simp, fun hf => ?_,
        fun hf => absurd hf (State.terminalTest_fsm_ne_error _)⟩
      simpa using State.terminalTest_resultLen hf

/-- Settles O21: `LIT` ends in an exit of a token that appends one byte. -/
theorem litFrame : Obligations.LitFrame := by
  intro b s t h
  obtain ⟨chunk, hchunk, exit⟩ := execLit_exit h
  have f := exit.frame
  exact ⟨f.config, f.inMem, f.inputLen, f.host, f.decodedSize, f.linkTableOffset,
    f.byteChunkOffset, f.maskCursor, f.maskWord, f.maskBitsLeft, f.linkCursor, f.ctrlBit,
    f.errCode, f.resultLen, fun hf => ⟨f.byteChunkCursor.trans (hchunk hf), f.onError hf⟩,
    fun a ha => f.outside 1 rfl a (by omega)⟩

/-- Settles O26: `REFS` ends in an exit of a token that appends a short run. -/
theorem refsFrame : Obligations.RefsFrame := by
  intro lf d s t h
  obtain ⟨link, exit⟩ := execRefs_exit h
  have f := exit.frame
  exact ⟨f.config, f.inMem, f.inputLen, f.host, f.decodedSize, f.linkTableOffset,
    f.byteChunkOffset, f.maskCursor, f.maskWord, f.maskBitsLeft, f.byteChunkCursor, f.ctrlBit,
    f.errCode, f.resultLen, f.onError, f.noRun, f.outside⟩

/-- Settles O27: `REFX` ends in an exit of a token that appends an extended run. -/
theorem refxFrame : Obligations.RefxFrame := by
  intro d e s t h
  obtain ⟨link, chunk, exit⟩ := execRefx_exit h
  have f := exit.frame
  exact ⟨f.config, f.inMem, f.inputLen, f.host, f.decodedSize, f.linkTableOffset,
    f.byteChunkOffset, f.maskCursor, f.maskWord, f.maskBitsLeft, f.ctrlBit,
    f.errCode, f.resultLen, f.onError, f.noRun, f.outside⟩

/-- Settles O47: the mask registers are those of the loop, the rest is what DONE requires. -/
theorem doneIsReachedWithinBounds : Obligations.DoneIsReachedWithinBounds := by
  intro s t hs hl h hd
  have loop := (phaseInv_of_inLoop hl).mp hs.phase
  have move := engineStep_next h
  obtain ⟨hcursor, hbits, hlen⟩ := (move.loopMove hl).mask_of_done hd
  have done := (phaseInv_of_done hd).mp (move.inv hs).phase
  rw [hcursor, hbits, hlen]
  exact ⟨loop.maskFrom, loop.maskTo, loop.maskBits, done.all, done.fits, done.callResult hd⟩

/-- Settles O48: every advance of a cursor has passed its bounds check, so none wraps. -/
theorem cursorsNeverDecrease : Obligations.CursorsNeverDecrease := by
  intro s t hl h
  cases (engineStep_next h).loopMove hl with
  | shifts | chooses => exact ⟨le_rfl, le_rfl, le_rfl, le_rfl⟩
  | refills w bound read =>
    refine ⟨?_, le_rfl, le_rfl, le_rfl⟩
    exact (cursorOk_add (n := 4) (by decide) bound).le
  | exits run link chunk t linkOk chunkOk fits exit =>
    have f := exit.frame
    rw [f.maskCursor, f.linkCursor, f.byteChunkCursor]
    exact ⟨le_rfl, linkOk.le, chunkOk.le, exit.outputCursor_le⟩

/-- Settles O41: each register of `State.reset` holds the value R31 gives. -/
theorem resetValues : Obligations.ResetValues :=
  ⟨rfl, rfl, rfl, rfl, rfl, rfl, rfl⟩

/-- Settles O43: the flags are decided by `fsm`, so a poll answers those decisions. -/
theorem statusFlagsAndCodes : Obligations.StatusFlagsAndCodes := by
  intro s
  have hbusy : s.busy = true ↔ s.fsm = .header ∨ s.fsm.inLoop = true := by simp [busy_eq]
  have hdone : s.done = true ↔ s.fsm = .done := decide_eq_true_iff
  have herror : s.error = true ↔ s.fsm = .error := decide_eq_true_iff
  refine ⟨hbusy, hdone, herror, ?_, ?_, ?_, ?_, ⟨s.errCodeBits, rfl, ?_⟩, rfl, rfl⟩
  · rw [hbusy, hdone]
    rintro ⟨hb, hf⟩
    simp [hf, Fsm.inLoop] at hb
  · rw [hbusy, herror]
    rintro ⟨hb, hf⟩
    simp [hf, Fsm.inLoop] at hb
  · rw [hdone, herror]
    rintro ⟨hd, hf⟩
    cases hd.symm.trans hf
  · rw [← busy_eq]
    rfl
  · unfold State.errCodeBits
    rcases s.errCode with _ | e
    · rfl
    · cases e <;> rfl

end Sys2Proof.Machine
end

section
/-! SUPPORT. The proofs of the memory family: wide reads of IN, what a step may write in OUT, and
that IN and the header registers stay as they are (R41, R44 to R47, R55, R84, R106, R126). -/

namespace Sys2Proof.Machine

variable {s t : State}

/-! ## Where a token writes OUT -/

/-- A token whose run ends at or below `limit` leaves OUT alone from there on (R106). -/
theorem TokenExit.read_above {run : Option Nat} {link chunk : Word} {limit a : Nat}
    (h : TokenExit s run link chunk t)
    (fits : ∀ n, run = some n → s.outputCursor.toNat + n ≤ limit) (ha : limit ≤ a) :
    t.outMem.read a = s.outMem.read a := by
  cases run with
  | none => exact h.frame.noRun rfl a
  | some n => exact h.frame.outside n rfl a (.inr ((fits n rfl).trans ha))

/-- A token writes OUT only between the old output cursor and the new one (R47). -/
theorem TokenExit.read_outside {run : Option Nat} {link chunk : Word} {a : Nat}
    (h : TokenExit s run link chunk t)
    (ha : a < s.outputCursor.toNat ∨ t.outputCursor.toNat ≤ a) :
    t.outMem.read a = s.outMem.read a := by
  cases h with
  | raised e => rfl
  | appended n out count grown =>
    have hcursor : ((s.atStreams link chunk).appended out n).outputCursor.toNat
        = s.outputCursor.toNat + n := grown.cursor
    rw [State.terminalTest_outputCursor, hcursor] at ha
    rw [State.terminalTest_outMem]
    exact grown.outside a ha

theorem LoopMove.read_outside {a : Nat} (h : LoopMove s t)
    (ha : a < s.outputCursor.toNat ∨ t.outputCursor.toNat ≤ a) :
    t.outMem.read a = s.outMem.read a := by
  cases h with
  | shifts | refills | chooses => rfl
  | exits run link chunk t linkOk chunkOk fits exit => exact exit.read_outside ha

/-- Only a token writes OUT (R47). -/
theorem EngineMove.outMem_eq (h : EngineMove s t) (hlit : s.fsm ≠ .literal)
    (hback : s.fsm ≠ .backref) : t.outMem = s.outMem := by
  cases h with
  | waits | headerShort | headerTooLarge | maskMissing | maskShift | maskRefill
  | dispatchLiteral | dispatchBackref => rfl
  | headerRead => exact State.terminalTest_outMem _
  | literalMissing phase | literal phase => exact absurd phase hlit
  | codeMissing phase | extensionMissing phase | runRaised phase | run phase =>
    exact absurd phase hback

/-! ## What a step of the engine leaves alone -/

/-- Two states with the same input, configuration and host (R44, R55). -/
structure SameInput (s t : State) : Prop where
  inMem : t.inMem = s.inMem
  inputLen : t.inputLen = s.inputLen
  config : t.config = s.config
  host : t.host = s.host

/-- Two states with the same header registers (R84). -/
structure SameHeader (s t : State) : Prop where
  decodedSize : t.decodedSize = s.decodedSize
  linkTableOffset : t.linkTableOffset = s.linkTableOffset
  byteChunkOffset : t.byteChunkOffset = s.byteChunkOffset

theorem LoopMove.sameInput (h : LoopMove s t) : SameInput s t := by
  cases h with
  | shifts | refills | chooses => exact ⟨rfl, rfl, rfl, rfl⟩
  | exits run link chunk t linkOk chunkOk fits exit =>
    have f := exit.frame
    exact ⟨f.inMem, f.inputLen, f.config, f.host⟩

theorem LoopMove.sameHeader (h : LoopMove s t) : SameHeader s t := by
  cases h with
  | shifts | refills | chooses => exact ⟨rfl, rfl, rfl⟩
  | exits run link chunk t linkOk chunkOk fits exit =>
    have f := exit.frame
    exact ⟨f.decodedSize, f.linkTableOffset, f.byteChunkOffset⟩

theorem EngineMove.sameInput (h : EngineMove s t) : SameInput s t := by
  have inLoop : s.fsm.inLoop = true → SameInput s t := fun hl => (h.loopMove hl).sameInput
  cases h with
  | waits | headerShort | headerTooLarge => exact ⟨rfl, rfl, rfl, rfl⟩
  | headerRead => constructor <;> simp
  | _ phase => exact inLoop (by rw [phase]; rfl)

/-- Only the header step writes the header registers (R84). -/
theorem EngineMove.sameHeader (h : EngineMove s t) (hf : s.fsm ≠ .header) : SameHeader s t := by
  have inLoop : s.fsm.inLoop = true → SameHeader s t := fun hl => (h.loopMove hl).sameHeader
  cases h with
  | waits => exact ⟨rfl, rfl, rfl⟩
  | headerShort phase | headerTooLarge phase | headerRead phase => exact absurd phase hf
  | _ phase => exact inLoop (by rw [phase]; rfl)

/-! ## The obligations -/

/-- Settles O10: each wide read composes its byte reads, and the composition is big-endian. -/
theorem wideReadsAreBigEndian : Obligations.WideReadsAreBigEndian := by
  intro m a b0 b1 b2 b3 h0
  refine ⟨readIn_eq_ok.mpr h0, fun h1 => ⟨⟨be16 b0 b1, ?_, be16_toNat b0 b1⟩, fun h2 h3 =>
    ⟨be32 b0 b1 b2 b3, ?_, be32_toNat b0 b1 b2 b3⟩⟩⟩
  · exact readIn16_eq_ok.mpr ⟨b0, b1, h0, h1, rfl⟩
  · exact readIn32_eq_ok.mpr ⟨b0, b1, b2, b3, h0, h1, h2, h3, rfl⟩

/-- Settles O20: of the exits of `LIT` only the failed bounds check leads to ERROR. -/
theorem litRaisesTruncatedInput : Obligations.LitRaisesTruncatedInput := by
  intro b s
  refine ⟨fun past => (execLit_eq b).trans (if_neg (by omega)), fun t h he => ?_⟩
  by_contra within
  replace h := (execLit_eq b).symm.trans h
  rw [if_pos (by omega)] at h
  split at h
  · cases h
    exact State.terminalTest_fsm_ne_error _ he
  · cases h

/-- Settles O32: a literal is one owed byte, and a run is cut or rejected at `decodedSize`. -/
theorem nothingIsWrittenAboveDecodedSize : Obligations.NothingIsWrittenAboveDecodedSize := by
  intro i s t owed h a ha
  cases i with
  | hdr size link chunk =>
    obtain ⟨-, -, -, -, same, -⟩ := hdrFrame size link chunk s t h
    exact same a
  | lit b =>
    obtain ⟨chunk, -, exit⟩ := execLit_exit h
    refine exit.read_above ?_ ha
    rintro _ ⟨⟩
    exact owed
  | refs lf d =>
    obtain ⟨link, exit⟩ := execRefs_exit h
    exact exit.read_above (fun n hn => (State.copyCount_le hn).2 owed.le) ha
  | refx d e =>
    obtain ⟨link, chunk, exit⟩ := execRefx_exit h
    exact exit.read_above (fun n hn => (State.copyCount_le hn).2 owed.le) ha

/-- Settles O49: by the inversion of the engine's step. -/
theorem engineLeavesItsInputAlone : Obligations.EngineLeavesItsInputAlone := by
  intro s t h
  have move := engineStep_next h
  have input := move.sameInput
  refine ⟨input.inMem, input.inputLen, input.config, input.host, fun hf => ?_⟩
  have header := move.sameHeader hf
  exact ⟨header.decodedSize, header.linkTableOffset, header.byteChunkOffset⟩

/-- Settles O52: outside a token OUT is untouched, and a token appends at the output cursor. -/
theorem outputGrowsOnlyByAppending : Obligations.OutputGrowsOnlyByAppending := by
  intro s t h
  have move := engineStep_next h
  refine ⟨move.outMem_eq, fun phase a ha => ?_⟩
  have inLoop : s.fsm.inLoop = true := by
    obtain hf | hf := phase <;> rw [hf] <;> rfl
  exact (move.loopMove inLoop).read_outside ha

end Sys2Proof.Machine
end

section
/-! SUPPORT. The proofs of the encoding family: the decoder and the encoder are inverse to each
other, the opcode map and the lines of R71 agree with both, and the canonical container has its
layout (R61 to R68, R71, R72). -/

namespace Sys2Proof.Machine

/-! ## Words and their bytes -/

/-- Joining four bytes and splitting them gives them back (R40). -/
@[simp] theorem bytes32_be32 (b0 b1 b2 b3 : Byte) :
    bytes32 (be32 b0 b1 b2 b3) = [b0, b1, b2, b3] := by
  have h0 := b0.isLt
  have h1 := b1.isLt
  have h2 := b2.isLt
  have h3 := b3.isLt
  simp only [bytes32, List.cons.injEq, and_true]
  refine ⟨?_, ?_, ?_, ?_⟩ <;>
    (apply BitVec.eq_of_toNat_eq; rw [extract_toNat, be32_toNat]; omega)

@[simp] theorem bytes32_length (w : Word) : (bytes32 w).length = 4 := rfl

@[simp] theorem headerBytes_length (tag size link chunk : Word) :
    (headerBytes tag size link chunk).length = headerSize := rfl

/-- A list of at least four bytes begins with a word. -/
theorem exists_bytes32_append {n : Nat} {bs : List Byte} (h : n + 4 ≤ bs.length) :
    ∃ w rest, bs = bytes32 w ++ rest ∧ n ≤ rest.length := by
  match bs with
  | b0 :: b1 :: b2 :: b3 :: rest =>
    exact ⟨be32 b0 b1 b2 b3, rest, by rw [bytes32_be32]; rfl, by simpa using h⟩
  | [] | [_] | [_, _] | [_, _, _] => simp at h

/-- Sixteen bytes or more begin with a header (R61). -/
theorem exists_headerBytes_append {bs : List Byte} (h : 16 ≤ bs.length) :
    ∃ tag size link chunk rest, bs = headerBytes tag size link chunk ++ rest := by
  obtain ⟨tag, rest, rfl, h12⟩ := exists_bytes32_append (n := 12) h
  obtain ⟨size, rest, rfl, h8⟩ := exists_bytes32_append (n := 8) h12
  obtain ⟨link, rest, rfl, h4⟩ := exists_bytes32_append (n := 4) h8
  obtain ⟨chunk, rest, rfl, -⟩ := exists_bytes32_append (n := 0) h4
  exact ⟨tag, size, link, chunk, rest, by simp only [headerBytes, List.append_assoc]⟩

/-! ## Decoding what was encoded -/

/-- R61: the header's fields are read back, whatever the tag and whatever follows. -/
theorem decodeHeader_headerBytes (tag size link chunk : Word) (rest : List Byte) :
    decodeHeader (headerBytes tag size link chunk ++ rest) = .ok (.hdr size link chunk) := by
  simp [decodeHeader, headerFieldsOffset, headerBytes, bytes32, decodeHeaderFields]

/-- R65, R67: length field 0 selects the extended form, which takes a byte-chunk byte. -/
theorem decodeBackref_extended {code : BitVec 16} (h : linkLengthField code = 0) (e : Byte)
    (link chunk : List Byte) : decodeBackref (bytes16 code ++ link) (e :: chunk) =
      .ok (.refx (linkDistance code) e, link, chunk) := by
  simp [bytes16, decodeBackref, h]

/-- R65, R67: any other length field selects the short form, which takes no byte-chunk byte. -/
theorem decodeBackref_short {code : BitVec 16} (h : linkLengthField code ≠ 0)
    (link chunk : List Byte) : decodeBackref (bytes16 code ++ link) chunk =
      .ok (.refs (linkLengthField code) (linkDistance code), link, chunk) := by
  simp only [bytes16, List.cons_append, List.nil_append, decodeBackref, be16_extract, if_neg h]

/-- R67: a well-formed token is decoded from its bytes, and the rest of both streams is left. -/
theorem decodeToken_of_encoding {i : Instr} {c : Bool} (wf : i.wellFormed = true)
    (hc : controlBit i = some c) (link chunk : List Byte) :
    decodeToken c (linkBytes i ++ link) (chunkBytes i ++ chunk) = .ok (i, link, chunk) := by
  cases i with
  | hdr => cases hc
  | lit b => cases hc; rfl
  | refs lf d =>
    cases hc
    have short : linkLengthField (linkCode lf d) ≠ 0 := by simpa [Instr.wellFormed] using wf
    have decoded := decodeBackref_short short link chunk
    rwa [linkLengthField_linkCode, linkDistance_linkCode] at decoded
  | refx d e =>
    cases hc
    have decoded := decodeBackref_extended (linkLengthField_linkCode 0 d) e link chunk
    rwa [linkDistance_linkCode] at decoded

theorem encode_of_controlBit {i : Instr} {c : Bool} (hc : controlBit i = some c) :
    encode i = .token c (linkBytes i) (chunkBytes i) := by
  cases i with
  | hdr => cases hc
  | lit b => exact (Laws.EncodePieces.lit b).1 c hc
  | refs lf d => exact (Laws.EncodePieces.refs lf d).1 c hc
  | refx d e => exact (Laws.EncodePieces.refx d e).1 c hc

theorem decode_token_of_ok {c : Bool} {link chunk link' chunk' : List Byte} {i : Instr}
    (h : decodeToken c link chunk = .ok (i, link', chunk')) :
    decode (.token c link chunk) = .ok i := by
  simp only [decode, h]

theorem decode_encode {i : Instr} (wf : i.wellFormed = true) : decode (encode i) = .ok i := by
  cases hc : controlBit i with
  | some c =>
    rw [encode_of_controlBit hc]
    exact decode_token_of_ok (by simpa using decodeToken_of_encoding wf hc [] [])
  | none =>
    cases i with
    | hdr size link chunk => exact decodeHeader_headerBytes 0 size link chunk []
    | lit | refs | refx => cases hc

/-! ## The decoder takes nothing but an encoding -/

/-- R67, R70: a back-reference is decoded from exactly its encoding. -/
theorem decodeBackref_ok {link chunk link' chunk' : List Byte} {i : Instr}
    (h : decodeBackref link chunk = .ok (i, link', chunk')) :
    i.wellFormed = true ∧ controlBit i = some false ∧ link = linkBytes i ++ link' ∧
      chunk = chunkBytes i ++ chunk' := by
  match link with
  | [] | [_] => cases h
  | b0 :: b1 :: rest =>
    have code_bytes : b0 :: b1 :: rest = bytes16 (be16 b0 b1) ++ rest := by rw [bytes16_be16]; rfl
    rw [code_bytes] at h ⊢
    by_cases hl : linkLengthField (be16 b0 b1) = 0
    · match chunk with
      | [] =>
        rw [← code_bytes, decodeBackref, if_pos hl] at h
        cases h
      | e :: tail =>
        rw [decodeBackref_extended hl] at h
        cases h
        exact ⟨rfl, rfl, by rw [linkBytes, ← hl, linkCode_fields], rfl⟩
    · rw [decodeBackref_short hl] at h
      cases h
      exact ⟨decide_eq_true hl, rfl, by rw [linkBytes, linkCode_fields], rfl⟩

/-- R67, R70: a token is decoded from exactly its encoding. -/
theorem decodeToken_ok {c : Bool} {link chunk link' chunk' : List Byte} {i : Instr}
    (h : decodeToken c link chunk = .ok (i, link', chunk')) :
    i.wellFormed = true ∧ controlBit i = some c ∧ link = linkBytes i ++ link' ∧
      chunk = chunkBytes i ++ chunk' := by
  match c, chunk with
  | false, _ => exact decodeBackref_ok h
  | true, [] => cases h
  | true, b :: rest =>
    cases h
    exact ⟨rfl, rfl, rfl, rfl⟩

/-- R65, R67, R68: two link bytes and a byte of the byte-chunk stream are always enough, and the
control bit and the length field say which token they are. -/
theorem decodeToken_bytes16 (c : Bool) (code : BitVec 16) (b : Byte) (link chunk : List Byte) :
    decodeToken c (bytes16 code ++ link) (b :: chunk) =
      .ok (if c then (.lit b, bytes16 code ++ link, chunk)
        else if linkLengthField code = 0 then (.refx (linkDistance code) b, link, chunk)
        else (.refs (linkLengthField code) (linkDistance code), link, b :: chunk)) := by
  cases c with
  | true => rfl
  | false =>
    by_cases hl : linkLengthField code = 0
    · exact (decodeBackref_extended hl b link chunk).trans (by simp [hl])
    · exact (decodeBackref_short hl link (b :: chunk)).trans (by simp only [if_neg hl]; rfl)

/-! ## The opcode map -/

/-- Masking a key masks the control bit and the link code. -/
theorem tokenKey_and (c c' : Bool) (x y : BitVec 16) :
    tokenKey c x &&& tokenKey c' y = tokenKey (c && c') (x &&& y) := by
  rw [tokenKey, tokenKey, BitVec.and_append]
  cases c <;> cases c' <;> rfl

theorem tokenKey_inj {c c' : Bool} {x y : BitVec 16} :
    tokenKey c x = tokenKey c' y ↔ c = c' ∧ x = y := by
  refine ⟨fun h => ?_, by rintro ⟨rfl, rfl⟩; rfl⟩
  have bit (i : Nat) := congrArg (BitVec.getLsbD · i) h
  simp only [tokenKey_getLsbD] at bit
  refine ⟨by simpa using bit 16, BitVec.eq_of_getLsbD_eq fun i hi => ?_⟩
  simpa only [if_pos hi] using bit i

/-- The mask of the length field is zero on a code whose length field is zero, and on no other. -/
theorem and_lengthMask_eq_zero {code : BitVec 16} :
    code &&& 0xF000#16 = 0#16 ↔ linkLengthField code = 0 := by
  have masked : code &&& 0xF000#16 = linkCode (linkLengthField code) 0 := by
    conv_lhs => rw [← linkCode_fields code]
    show (linkLengthField code ++ linkDistance code) &&& (BitVec.allOnes 4 ++ 0#12) = _
    rw [BitVec.and_append, BitVec.and_allOnes, BitVec.and_zero]
    rfl
  refine ⟨fun h => ?_, fun h => by rw [masked, h]; rfl⟩
  rw [masked] at h
  exact (linkLengthField_linkCode _ 0).symm.trans (congrArg linkLengthField h)

/-- A row that tests the control bit and some bits of the link code. -/
theorem covers_tokenKey (kind : TokenKind) (c want : Bool) (code mask pattern : BitVec 16) :
    TokenRow.covers ⟨kind, tokenKey true mask, tokenKey want pattern⟩ (tokenKey c code) =
      decide (c = want ∧ code &&& mask = pattern) := by
  simp only [TokenRow.covers, tokenKey_and, tokenKey_inj, Bool.and_true]

theorem tokenTable_eq : tokenTable =
    [⟨.lit, tokenKey true 0, tokenKey true 0⟩, ⟨.refx, tokenKey true 0xF000, tokenKey false 0⟩,
      ⟨.refs, tokenKey true 0, tokenKey false 0⟩] := rfl

/-- R67: the first matching row, by the control bit and the length field. -/
theorem selectKind_tokenKey (c : Bool) (code : BitVec 16) : selectKind (tokenKey c code) =
    some (if c then .lit else if linkLengthField code = 0 then .refx else .refs) := by
  simp only [selectKind, tokenTable_eq, List.find?, covers_tokenKey]
  cases c with
  | true => simp
  | false => by_cases hl : linkLengthField code = 0#4 <;> simp [and_lengthMask_eq_zero, hl]

/-- R67: the decoder reads the kind the map selects. -/
theorem kind_of_decodeToken {c : Bool} {code : BitVec 16} {b : Byte} {link' chunk' : List Byte}
    {i : Instr} (h : decodeToken c (bytes16 code) [b] = .ok (i, link', chunk')) :
    i.kind = selectKind (tokenKey c code) := by
  rw [← List.append_nil (bytes16 code), decodeToken_bytes16] at h
  rw [selectKind_tokenKey]
  split at h
  case isTrue hc =>
    cases h
    rw [if_pos hc, Instr.kind]
  case isFalse hc =>
    rw [if_neg hc]
    split at h
    case isTrue hl =>
      cases h
      rw [if_pos hl, Instr.kind]
    case isFalse hl =>
      cases h
      rw [if_neg hl, Instr.kind]

/-! ## Run lengths and the lines of R71 -/

theorem shortRun_bounds {lf : BitVec 4} {d : BitVec 12} (wf : (Instr.refs lf d).wellFormed = true) :
    3 ≤ shortRun lf ∧ shortRun lf ≤ 17 := by
  have nonzero : lf.toNat ≠ 0 := fun h => of_decide_eq_true wf (BitVec.eq_of_toNat_eq h)
  have := lf.isLt
  unfold shortRun shortRunBias
  omega

theorem extendedRun_bounds (e : Byte) : 18 ≤ extendedRun e ∧ extendedRun e ≤ 273 := by
  have := e.isLt
  unfold extendedRun extendedRunBias
  omega

/-- R71: in range, a line `REFS` is the short form with the fields `N-2` and `D`. -/
theorem assembleRefs_inRange {d n : Nat} (hd : d ≤ 4095) (hlo : 3 ≤ n) (hhi : n ≤ 17) :
    assembleRefs d n = some (.refs (BitVec.ofNat 4 (n - 2)) (BitVec.ofNat 12 d)) :=
  if_pos ⟨hd, hlo, hhi⟩

/-- R71: in range, a line `REFX` is the extended form with distance `D` and byte `N-18`. -/
theorem assembleRefx_inRange {d n : Nat} (hd : d ≤ 4095) (hlo : 18 ≤ n) (hhi : n ≤ 273) :
    assembleRefx d n = some (.refx (BitVec.ofNat 12 d) (BitVec.ofNat 8 (n - 18))) :=
  if_pos ⟨hd, hlo, hhi⟩

theorem assemble_ref_short {n : Nat} (d : Nat) (h : n ≤ 17) :
    assemble (.ref d n) = assembleRefs d n := if_pos h

theorem assemble_ref_extended {n : Nat} (d : Nat) (h : 18 ≤ n) :
    assemble (.ref d n) = assembleRefx d n := if_neg (by omega)

/-- R66, R71: a well-formed back-reference is the expansion of `REF` at its distance and length. -/
theorem assemble_ref_of_backref {i : Instr} {d : BitVec 12} (wf : i.wellFormed = true)
    (form : (∃ lf, i = .refs lf d) ∨ ∃ e, i = .refx d e) :
    assemble (.ref d.toNat (producedBy i)) = some i := by
  have hd : d.toNat ≤ 4095 := Nat.le_of_lt_succ d.isLt
  obtain ⟨lf, rfl⟩ | ⟨e, rfl⟩ := form
  · obtain ⟨hlo, hhi⟩ := shortRun_bounds wf
    rw [producedBy, assemble_ref_short _ hhi, assembleRefs_inRange hd hlo hhi]
    simp [shortRun, shortRunBias]
  · obtain ⟨hlo, hhi⟩ := extendedRun_bounds e
    rw [producedBy, assemble_ref_extended _ hlo, assembleRefx_inRange hd hlo hhi]
    simp [extendedRun, extendedRunBias]

theorem refs_ofNat_wellFormed {n : Nat} (d : BitVec 12) (hlo : 3 ≤ n) (hhi : n ≤ 17) :
    (Instr.refs (BitVec.ofNat 4 (n - 2)) d).wellFormed = true := by
  refine decide_eq_true fun h => ?_
  have field : (n - 2) % 2 ^ 4 = 0 := congrArg BitVec.toNat h
  omega

/-- R65, R66: a back-reference of every length and distance. -/
theorem exists_backref {n : Nat} (hlo : 3 ≤ n) (hhi : n ≤ 273) (d : BitVec 12) :
    ∃ i : Instr, i.wellFormed = true ∧ producedBy i = n ∧
      ((∃ lf, i = .refs lf d) ∨ ∃ e, i = .refx d e) := by
  by_cases short : n ≤ 17
  · refine ⟨.refs (BitVec.ofNat 4 (n - 2)) d, refs_ofNat_wellFormed d hlo short, ?_, .inl ⟨_, rfl⟩⟩
    rw [producedBy, shortRun, shortRunBias, BitVec.toNat_ofNat]
    omega
  · refine ⟨.refx d (BitVec.ofNat 8 (n - 18)), rfl, ?_, .inr ⟨_, rfl⟩⟩
    rw [producedBy, extendedRun, extendedRunBias, BitVec.toNat_ofNat]
    omega

/-- R63: the link code of two numbers in range. -/
theorem linkCode_ofNat (l : Nat) {d : Nat} (hd : d ≤ 4095) :
    linkCode (BitVec.ofNat 4 l) (BitVec.ofNat 12 d) = BitVec.ofNat 16 (l * 4096 + d) := by
  apply BitVec.eq_of_toNat_eq
  rw [linkCode_toNat]
  simp only [BitVec.toNat_ofNat]
  omega

/-! ## The mask region -/

/-- Horner's rule on bits: the first bit ends up most significant. -/
theorem testBit_foldl_bits (f : Nat → Bool) {n j : Nat} (hj : j < n) :
    ((List.range n).foldl (fun acc i => 2 * acc + (f i).toNat) 0).testBit (n - 1 - j) = f j := by
  induction n with
  | zero => omega
  | succ n ih =>
    rw [List.range_succ, List.foldl_append, List.foldl_cons, List.foldl_nil, ← Nat.bit_val]
    obtain rfl | hlt := Nat.eq_or_lt_of_le (Nat.le_of_lt_succ hj)
    · simp
    · have shift : n + 1 - 1 - j = (n - 1 - j) + 1 := by omega
      rw [shift, Nat.testBit_bit_succ, ih hlt]

/-- R72: the places of the control bits in a byte of the mask region. -/
theorem maskByte_getMsbD (bits : List Bool) (k : Nat) {j : Nat} (hj : j < 8) :
    (maskByte bits k).getMsbD j = bits.getD (8 * k + j) false := by
  have low : 8 - 1 - j < 8 := by omega
  rw [maskByte, BitVec.getMsbD, BitVec.getLsbD_ofNat,
    testBit_foldl_bits (fun j => bits.getD (8 * k + j) false) hj]
  simp [hj, low]

theorem be16_getMsbD (b0 b1 : Byte) (i : Nat) :
    (be16 b0 b1).getMsbD i = if i < 8 then b0.getMsbD i else b1.getMsbD (i - 8) := by
  rw [be16, BitVec.getMsbD_append]
  by_cases h : i < 8 <;> simp [h]

/-- R41, R42: the bits of a word, from the top, stand in its four bytes in order. -/
theorem wordAt_getMsbD (input : List Byte) (a : Nat) {q j : Nat} (hq : q < 4) (hj : j < 8) :
    (wordAt input a).getMsbD (8 * q + j) = (byteAt input (a + q)).getMsbD j := by
  rw [wordAt, be32, BitVec.getMsbD_append, be16_getMsbD, be16_getMsbD]
  match q with
  | 0 => simp [hj, show j < 16 by omega]
  | 1 => simp [show 8 + j < 16 by omega]
  | 2 => simp [hj]
  | 3 => simp [show 16 ≤ 24 + j by omega, show 24 + j - 16 = 8 + j by omega]

theorem maskRegion_length (bits : List Bool) :
    (maskRegion bits).length = 4 * maskWordCount bits.length := by
  simp [maskRegion, maskWordBytes]

/-- Byte `k` behind the bytes before the mask region is byte `k` of the region. -/
theorem byteAt_maskRegion {pre rest : List Byte} {bits : List Bool} {k : Nat}
    (hk : k < 4 * maskWordCount bits.length) :
    byteAt (pre ++ (maskRegion bits ++ rest)) (pre.length + k) = maskByte bits k := by
  have inside : k < (maskRegion bits).length := by rwa [maskRegion_length]
  rw [byteAt, List.getD_append_right _ _ _ _ (Nat.le_add_right _ _), Nat.add_sub_cancel_left,
    List.getD_append _ _ _ _ inside, List.getD_eq_getElem _ _ inside]
  simp [maskRegion]

/-- R42, R72: control bit `k` is bit `k mod 32`, from the top, of word `k / 32` of the mask region;
a bit beyond the last token is 0. -/
theorem wordAt_maskRegion_getMsbD {pre rest : List Byte} {bits : List Bool} {k : Nat}
    (hk : k < 32 * maskWordCount bits.length) :
    (wordAt (pre ++ (maskRegion bits ++ rest)) (pre.length + 4 * (k / 32))).getMsbD (k % 32) =
      bits.getD k false := by
  have byte_index : 4 * (k / 32) + k % 32 / 8 = k / 8 := by omega
  have bit_index : k % 32 = 8 * (k % 32 / 8) + k % 8 := by omega
  rw [bit_index, wordAt_getMsbD _ _ (by omega) (by omega), Nat.add_assoc, byte_index,
    byteAt_maskRegion (by omega), maskByte_getMsbD _ _ (by omega), Nat.div_add_mod]

/-! ## The canonical container -/

/-- The control bits of a list of tokens are as many as the tokens, and in their order. -/
theorem map_some_controlBits {ts : List Instr} (h : ∀ t ∈ ts, controlBit t ≠ none) :
    (ts.filterMap controlBit).map some = ts.map controlBit := by
  rw [List.map_filterMap_some_eq_filter_map_isSome, List.filter_eq_self]
  simpa [Option.isSome_iff_ne_none] using h

theorem length_controlBits {ts : List Instr} (h : ∀ t ∈ ts, controlBit t ≠ none) :
    (ts.filterMap controlBit).length = ts.length := by
  simpa using congrArg List.length (map_some_controlBits h)

theorem getElem?_controlBits {ts : List Instr} (h : ∀ t ∈ ts, controlBit t ≠ none) {k : Nat}
    {t : Instr} (hk : ts[k]? = some t) :
    some ((ts.filterMap controlBit).getD k false) = controlBit t := by
  have bit := congrArg (·[k]?) (map_some_controlBits h)
  simp only [List.getElem?_map, hk, Option.map_some, Option.map_eq_some_iff] at bit
  obtain ⟨c, hc, same⟩ := bit
  rw [List.getD_eq_getElem?_getD, hc, ← same, Option.getD_some]

/-- R72: where the link region of the canonical container stands. -/
def canonicalLinkAt (ts : List Instr) : Nat := 16 + 4 * maskWordCount ts.length

/-- R72: the header of the canonical container. -/
def canonicalHeader (tag size : Word) (ts : List Instr) : List Byte :=
  headerBytes tag size (BitVec.ofNat 32 (canonicalLinkAt ts))
    (BitVec.ofNat 32 (canonicalLinkAt ts + (ts.flatMap linkBytes).length))

/-- R72: the four regions of the canonical container of a list of tokens. -/
theorem canonicalContainer_eq (tag size : Word) {ts : List Instr}
    (h : ∀ t ∈ ts, controlBit t ≠ none) : canonicalContainer tag size ts =
      canonicalHeader tag size ts ++ (maskRegion (ts.filterMap controlBit) ++
        (ts.flatMap linkBytes ++ ts.flatMap chunkBytes)) := by
  simp only [canonicalContainer, canonicalHeader, canonicalLinkAt, headerSize, maskRegion_length,
    length_controlBits h, List.append_assoc]

theorem wordAt_canonicalHeader (tag size : Word) (ts : List Instr) (rest : List Byte) :
    wordAt (canonicalHeader tag size ts ++ rest) 0 = tag :=
  be32_extract tag

/-! ## The obligations -/

/-- Settles O1: the header by its fields, a token by its pieces in the two streams. -/
theorem decodeOfEncodeIsTheInstruction : Obligations.DecodeOfEncodeIsTheInstruction :=
  ⟨decodeHeader_headerBytes, fun _ wf =>
    ⟨decode_encode wf, fun _ hc link chunk => decodeToken_of_encoding wf hc link chunk⟩⟩

/-- Settles O2: the converse of the round trip. -/
theorem tokenTakesExactlyItsEncoding : Obligations.TokenTakesExactlyItsEncoding :=
  fun _ _ _ _ _ _ h => decodeToken_ok h

/-- Settles O4: each row of the map is a test of the control bit and of the length field. -/
theorem opcodeMapSelectsTheDecodedKind : Obligations.OpcodeMapSelectsTheDecodedKind := by
  refine ⟨fun code => selectKind_tokenKey true code, fun code hl => ?_, fun code hl => ?_,
    fun _ _ _ _ _ _ h => kind_of_decodeToken h, fun i => ?_⟩
  · rw [selectKind_tokenKey, if_neg Bool.false_ne_true, if_pos hl]
  · rw [selectKind_tokenKey, if_neg Bool.false_ne_true, if_neg hl]
  · cases i <;> rfl

/-- Settles O6: sixteen bytes begin with a header, and two bytes are a link code. -/
theorem everyBitPatternDecodes : Obligations.EveryBitPatternDecodes := by
  refine ⟨fun bytes h => ?_, fun c b0 b1 b => ?_⟩
  · obtain ⟨tag, size, link, chunk, rest, rfl⟩ := exists_headerBytes_append h
    exact ⟨_, decodeHeader_headerBytes tag size link chunk rest⟩
  · have decoded := decodeToken_bytes16 c (be16 b0 b1) b [] []
    rw [bytes16_be16] at decoded
    exact ⟨_, decode_token_of_ok decoded⟩

/-- Settles O7: a line `REF` has at most one expansion, and every back-reference is one. -/
theorem eachRunLengthHasOneEncoding : Obligations.EachRunLengthHasOneEncoding := by
  refine ⟨fun _ _ wf => shortRun_bounds wf, fun _ e => extendedRun_bounds e, fun n hlo hhi d => ?_⟩
  obtain ⟨i, wf, rfl, form⟩ := exists_backref hlo hhi d
  refine ⟨i, ⟨wf, rfl, form⟩, fun j ⟨jwf, same, jform⟩ => ?_⟩
  have expansion := assemble_ref_of_backref jwf jform
  rw [same, assemble_ref_of_backref wf form] at expansion
  exact (Option.some.inj expansion).symm

/-- Settles O8: in range a line expands to the fields of its numbers, whose link code is theirs. -/
theorem notationStandsForItsPieces : Obligations.NotationStandsForItsPieces := by
  refine ⟨fun b => ⟨rfl, rfl⟩, fun d n hd hlo hhi => ?_, fun d n hd hlo hhi => ?_,
    fun d n out => if_neg out, fun d n out => if_neg out, fun d n out => ?_⟩
  · refine ⟨_, assembleRefs_inRange hd hlo hhi, refs_ofNat_wellFormed _ hlo hhi, rfl,
      (assemble_ref_short d hhi).trans (assembleRefs_inRange hd hlo hhi), ?_⟩
    rw [encode, linkCode_ofNat _ hd]
  · refine ⟨_, assembleRefx_inRange hd hlo hhi, rfl, rfl,
      (assemble_ref_extended d hlo).trans (assembleRefx_inRange hd hlo hhi), ?_⟩
    have code := linkCode_ofNat 0 hd
    rw [Nat.zero_mul, Nat.zero_add] at code
    exact congrArg (fun code => Pieces.token false (bytes16 code) _) code
  · by_cases short : n ≤ 17
    · exact (assemble_ref_short d short).trans (if_neg (by omega))
    · exact (assemble_ref_extended d (by omega)).trans (if_neg (by omega))

/-- Settles O9: the container is its four regions, and each clause reads one of them. -/
theorem canonicalContainerLayout : Obligations.CanonicalContainerLayout := by
  intro tag size ts tokens _
  have header_length : (canonicalHeader tag size ts).length = 16 := rfl
  have mask_length := maskRegion_length (ts.filterMap controlBit)
  rw [length_controlBits tokens] at mask_length
  rw [canonicalContainer_eq tag size tokens]
  have mask_bit {k : Nat} (hk : k < 32 * maskWordCount ts.length) :=
    wordAt_maskRegion_getMsbD (pre := canonicalHeader tag size ts)
      (rest := ts.flatMap linkBytes ++ ts.flatMap chunkBytes) (bits := ts.filterMap controlBit)
      (k := k) (by rwa [length_controlBits tokens])
  refine ⟨wordAt_canonicalHeader tag size ts _, decodeHeader_headerBytes tag size _ _ _,
    fun k t hk => ?_, fun k unused inside => ?_, ?_, ?_⟩
  · have used : k < ts.length := (List.getElem?_eq_some_iff.mp hk).1
    rw [← getElem?_controlBits tokens hk, ← mask_bit (by unfold maskWordCount; omega)]
    rfl
  · refine (mask_bit inside).trans (List.getD_eq_default _ _ ?_)
    rwa [length_controlBits tokens]
  · rw [← List.append_assoc, List.drop_left' (by simp [header_length, mask_length])]
  · simp only [List.length_append, header_length, mask_length]
    omega

/-- Settles O3: by running the decoder on the four words. -/
theorem specWordsDecode : Obligations.SpecWordsDecode := ⟨rfl, rfl, rfl, rfl⟩

end Sys2Proof.Machine
end

section
/-! SUPPORT. The proofs of the header family: the exits of `HDR`, the bytes of a word that IN holds,
and the step of state HEADER as the exits of the `HDR` those bytes decode to (R80 to R83). -/

namespace Sys2Proof.Machine

variable {s t : State} {size link chunk : Word}

/-! ## The exits of `HDR` -/

/-- R81: below 16 bytes no register is written but those of the error entry. -/
theorem exec_hdr_tooShort (short : s.inputLen.toNat < 16) :
    exec (.hdr size link chunk) s = .next (s.raise .malformedHeader) :=
  (execHdr_eq size link chunk).trans (if_pos short)

/-- R82: the header registers are already written when the capacity is tested. -/
theorem exec_hdr_tooLarge (len : 16 ≤ s.inputLen.toNat)
    (large : size.toNat > s.config.outCapacity.toNat) : exec (.hdr size link chunk) s =
      .next ((s.setHeader size link chunk).raise .allocationFailure) :=
  (execHdr_eq size link chunk).trans ((if_neg (Nat.not_lt.mpr len)).trans (if_pos large))

theorem exec_hdr_fits (len : 16 ≤ s.inputLen.toNat)
    (fits : size.toNat ≤ s.config.outCapacity.toNat) : exec (.hdr size link chunk) s =
      .next (s.setHeader size link chunk).initCall.terminalTest :=
  (execHdr_eq size link chunk).trans
    ((if_neg (Nat.not_lt.mpr len)).trans (if_neg (Nat.not_lt.mpr fits)))

/-- R81, R82: `HDR` enters ERROR by one of two exits, each with its own condition. -/
theorem exec_hdr_error (h : exec (.hdr size link chunk) s = .next t) (he : t.fsm = .error) :
    s.inputLen.toNat < 16 ∧ t.errCode = some .malformedHeader ∨
      (16 ≤ s.inputLen.toNat ∧ size.toNat > s.config.outCapacity.toNat) ∧
        t.errCode = some .allocationFailure := by
  obtain short | len := Nat.lt_or_ge s.inputLen.toNat 16
  · rw [exec_hdr_tooShort short] at h
    cases h
    exact .inl ⟨short, rfl⟩
  obtain fits | large := le_or_gt size.toNat s.config.outCapacity.toNat
  · rw [exec_hdr_fits len fits] at h
    cases h
    exact absurd he (State.terminalTest_fsm_ne_error _)
  · rw [exec_hdr_tooLarge len large] at h
    cases h
    exact .inr ⟨⟨len, large⟩, rfl⟩

/-! ## The fetch of the header -/

/-- The four bytes of IN that a wide read composes are the bytes of the word it answers (R41). -/
theorem readInBytes_of_readIn32 {m : Memory} {a : Nat} {w : Word} (h : readIn32 m a = .ok w) :
    readInBytes m a 4 = .ok (bytes32 w) := by
  obtain ⟨b0, b1, b2, b3, r0, r1, r2, r3, rfl⟩ := readIn32_eq_ok.mp h
  rw [bytes32_be32]
  refine readInBytes_eq_ok.mpr ⟨rfl, fun i hi => ?_⟩
  interval_cases i
  · exact r0
  · exact r1
  · exact r2
  · exact r3

/-- Two adjacent reads of bytes are one read of the bytes of both. -/
theorem readInBytes_append {m : Memory} {a n k : Nat} {xs ys : List Byte}
    (hx : readInBytes m a n = .ok xs) (hy : readInBytes m (a + n) k = .ok ys) :
    readInBytes m a (n + k) = .ok (xs ++ ys) := by
  obtain ⟨rfl, readx⟩ := readInBytes_eq_ok.mp hx
  obtain ⟨rfl, ready⟩ := readInBytes_eq_ok.mp hy
  refine readInBytes_eq_ok.mpr ⟨List.length_append, fun i hi => ?_⟩
  obtain inx | iny := Nat.lt_or_ge i xs.length
  · rw [List.getElem?_append_left inx]
    exact readx i inx
  · rw [List.getElem?_append_right iny, ← ready (i - xs.length) (by omega)]
    congr 1
    omega

/-- R80: the twelve bytes at 4 .. 15 are those of the words at 4, 8 and 12, and decode to them. -/
theorem State.fetchHeader_of_reads (len : 16 ≤ s.inputLen.toNat)
    (readSize : readIn32 s.inMem 4 = .ok size) (readLink : readIn32 s.inMem 8 = .ok link)
    (readChunk : readIn32 s.inMem 12 = .ok chunk) :
    s.fetchHeader = .ok (.hdr size link chunk) s := by
  have bytes : readInBytes s.inMem 4 12 = .ok (bytes32 size ++ (bytes32 link ++ bytes32 chunk)) :=
    readInBytes_append (readInBytes_of_readIn32 readSize)
      (readInBytes_append (readInBytes_of_readIn32 readLink) (readInBytes_of_readIn32 readChunk))
  have fields : decodeHeaderFields (bytes32 size ++ (bytes32 link ++ bytes32 chunk)) =
      .ok (.hdr size link chunk) := decodeHeader_headerBytes 0 size link chunk []
  rw [State.fetchHeader_eq, if_neg (Nat.not_lt.mpr len), bytes]
  exact congrArg s.decoded fields

/-! ## The obligations -/

/-- Settles O14: `HDR` ends in the terminal test with no byte written, so only the size 0 ends
the call. -/
theorem hdrStartsTheCall : Obligations.HdrStartsTheCall := by
  intro size link chunk s len fits
  rw [exec_hdr_fits len fits]
  by_cases empty : size = 0
  · subst empty
    rw [State.terminalTest_done (s := (s.setHeader 0 link chunk).initCall) le_rfl]
    rfl
  · have owed : 0 < size.toNat := by bv_omega
    rw [State.terminalTest_more (s := (s.setHeader size link chunk).initCall) owed]
    simp only [if_neg empty]
    rfl

/-- Settles O16: by the exits of `HDR`, whose conditions exclude each other. -/
theorem hdrRaisesInOrder : Obligations.HdrRaisesInOrder := by
  refine fun size link chunk s => ⟨exec_hdr_tooShort, exec_hdr_tooLarge, fun t h he => ?_⟩
  obtain ⟨short, code⟩ | ⟨⟨len, large⟩, code⟩ := exec_hdr_error h he
  · simp [code, short]
  · simp [code, len, large]

/-- Settles O15: where the input has 16 bytes, the step runs the `HDR` of the three words read. -/
theorem headerStepParsesTheHeader : Obligations.HeaderStepParsesTheHeader := by
  intro s phase
  rw [engineStep_header phase]
  refine ⟨fun short => ?_, fun len size link chunk readSize readLink readChunk => ?_⟩
  · rw [State.fetchHeader_eq, if_pos short]
    rfl
  · rw [State.fetchHeader_of_reads len readSize readLink readChunk]
    exact ⟨rfl, exec_hdr_tooLarge len, hdrStartsTheCall size link chunk s len⟩

end Sys2Proof.Machine
end

section
/-! SUPPORT. The proofs of the bitstream family: the reads through the two stream cursors, and the
count of tokens that the registers of a call hold (R92, R93, R95). -/

namespace Sys2Proof.Machine

variable {s t u : State} {ts : List Instr} {i : Instr}

/-! ## The control bits consumed -/

theorem State.terminalTest_bitsInFlight (s : State) : s.terminalTest.fsm.bitsInFlight = 0 := by
  unfold State.terminalTest
  split <;> rfl

/-- The header step starts the count (R32, R80). -/
theorem initCall_consumed (s : State) : s.initCall.terminalTest.Consumed [] := by
  constructor <;> simp [State.terminalTest_bitsInFlight]

/-- A control bit taken from a loaded word is the bit in flight (R91, R124). -/
theorem State.Consumed.shifts (h : s.Consumed ts) (idle : s.fsm.bitsInFlight = 0)
    (left : s.maskBitsLeft ≠ 0) (c : Bool) :
    ((s.shiftMask.latch c).goto .dispatch).Consumed ts := by
  have hcursor := h.maskCursor
  have hbits := h.maskBits
  rw [idle] at hcursor hbits
  obtain ⟨hle, hpred⟩ := maskBits_pred left (by omega)
  exact { h with
    maskCursor := by
      change s.maskCursor.toNat = 16 + 4 * ((ts.length + 1 + 31) / 32)
      omega
    maskBits := by
      change (s.maskBitsLeft - 1).toNat = (32 - (ts.length + 1) % 32) % 32
      omega }

/-- A control bit taken from a word just loaded is the bit in flight (R91, R124). -/
theorem State.Consumed.refills (h : s.Consumed ts) (idle : s.fsm.bitsInFlight = 0)
    (empty : s.maskBitsLeft = 0) (bound : s.maskCursor.toNat + 4 ≤ s.inputLen.toNat) (w : Word)
    (c : Bool) : (((s.loadMask w).shiftMask.latch c).goto .dispatch).Consumed ts := by
  have hcursor := h.maskCursor
  have hbits := h.maskBits
  rw [idle] at hcursor hbits
  rw [empty] at hbits
  have hnext : (s.maskCursor + BitVec.ofNat 32 4).toNat = s.maskCursor.toNat + 4 :=
    cursor_add_toNat bound
  have hleft : (BitVec.ofNat 6 32 - 1).toNat = 31 := by decide
  have whole : ts.length % 32 = 0 := by
    change 0 = _ at hbits
    omega
  exact { h with
    maskCursor := by
      change (s.maskCursor + BitVec.ofNat 32 4).toNat = 16 + 4 * ((ts.length + 1 + 31) / 32)
      omega
    maskBits := by
      change (BitVec.ofNat 6 32 - 1).toNat = (32 - (ts.length + 1) % 32) % 32
      omega }

/-- AWAIT_MASK_BIT and DISPATCH finish no token (R124, R125). -/
theorem EngineMove.keeps_count (h : EngineMove s t)
    (phase : s.fsm = .awaitMaskBit ∨ s.fsm = .dispatch) (consumed : s.Consumed ts)
    (ok : t.fsm ≠ .error) : t.Consumed ts := by
  cases h with
  | waits => exact consumed
  | maskMissing => exact absurd rfl ok
  | maskShift await left => exact consumed.shifts (by rw [await]; rfl) left _
  | maskRefill await empty bound w =>
    exact consumed.refills (by rw [await]; rfl) empty bound w _
  | dispatchLiteral dispatch | dispatchBackref dispatch =>
    have hcursor := consumed.maskCursor
    have hbits := consumed.maskBits
    rw [dispatch] at hcursor hbits
    exact { consumed with maskCursor := hcursor, maskBits := hbits }
  | _ other => simp [other] at phase

/-! ## The tokens finished -/

/-- The stream cursors `link` and `chunk` are past the pieces of the token `i` read at those of `s`
(R70, R92, R93). -/
structure State.TokenRead (s : State) (i : Instr) (link chunk : Word) : Prop where
  link : link.toNat = s.linkCursor.toNat + (linkBytes i).length
  chunk : chunk.toNat = s.byteChunkCursor.toNat + (chunkBytes i).length
  token : i.wellFormed = true ∧ controlBit i ≠ none

/-- A token that has appended all it produces is one more finished token, and its control bit is no
longer in flight (R95, R124). -/
theorem State.Consumed.finishes {link chunk : Word} {out : Memory} (h : s.Consumed ts)
    (inFlight : s.fsm.bitsInFlight = 1) (read : s.TokenRead i link chunk)
    (grown : AppendSpec s.config.outCapacity s.outputCursor.toNat (producedBy i) s.outMem out) :
    ((s.atStreams link chunk).appended out (producedBy i)).terminalTest.Consumed (ts ++ [i]) := by
  have hcursor := h.maskCursor
  have hbits := h.maskBits
  rw [inFlight] at hcursor hbits
  have hout : ((s.atStreams link chunk).appended out (producedBy i)).outputCursor.toNat =
      s.outputCursor.toNat + producedBy i := grown.cursor
  constructor
  case maskCursor => simpa [State.terminalTest_bitsInFlight, State.atStreams] using hcursor
  case maskBits => simpa [State.terminalTest_bitsInFlight, State.atStreams] using hbits
  case link => simpa [State.atStreams, read.link, h.link] using Nat.add_assoc ..
  case chunk => simpa [State.atStreams, read.chunk, h.chunk] using Nat.add_assoc ..
  case output =>
    rw [State.terminalTest_outputCursor, hout, h.output]
    simp
  case tokens =>
    intro j hj
    obtain hj | hj := List.mem_append.mp hj
    · exact h.tokens j hj
    · obtain rfl := List.mem_singleton.mp hj
      exact read.token

/-- The run of a back-reference is tried with the streams past its pieces (R100). -/
theorem BackrefRead.tokenRead {d : BitVec 12} {n : Nat} (h : BackrefRead s u d n i) :
    ∃ link chunk, u = s.atStreams link chunk ∧ n = producedBy i ∧ s.TokenRead i link chunk := by
  cases h with
  | short code bound read form =>
    exact ⟨_, _, rfl, rfl, cursor_add_toNat bound, rfl, decide_eq_true form, nofun⟩
  | extended code e bound read form bound' read' =>
    exact ⟨_, _, rfl, rfl, cursor_add_toNat bound, cursor_add_toNat bound', rfl, nofun⟩

/-- With Reject a run that is copied is copied whole (R106). -/
theorem State.copyCount_eq_of_reject {n k : Nat} (hp : s.config.overshootPolicy = .reject)
    (h : s.copyCount n = some k) : k = n := by
  obtain fits | past := le_or_gt (s.outputCursor.toNat + n) s.decodedSize.toNat
  · rw [State.copyCount_fits fits] at h
    exact (Option.some.inj h).symm
  · rw [State.copyCount_reject past hp] at h
    cases h

/-- LITERAL and BACKREF finish the token they fetch (R101, R102, R126). -/
theorem EngineMove.finishes_token (h : EngineMove s t)
    (phase : s.fsm = .literal ∨ s.fsm = .backref)
    (reject : s.config.overshootPolicy = .reject) (consumed : s.Consumed ts)
    (ok : t.fsm ≠ .error) : ∃ i u, s.fetch = some (.ok i u) ∧ t.Consumed (ts ++ [i]) := by
  cases h with
  | literalMissing | codeMissing | extensionMissing | runRaised => exact absurd rfl ok
  | literal inLiteral bound b read room fetched =>
    refine ⟨.lit b, s, by rw [State.fetch, inLiteral, fetched], ?_⟩
    have tokenRead : s.TokenRead (.lit b) s.linkCursor (s.byteChunkCursor + 1) :=
      ⟨rfl, cursor_add_toNat bound, rfl, nofun⟩
    exact consumed.finishes (by rw [inLiteral]; rfl) tokenRead (appendSpec_write _ b room)
  | run inBackref u v d n i read run fetched =>
    refine ⟨i, s, by rw [State.fetch, inBackref, fetched], ?_⟩
    obtain ⟨link, chunk, rfl, rfl, tokenRead⟩ := read.tokenRead
    obtain ⟨-, k, out, count, rfl, copied⟩ := State.replay_ok run
    obtain rfl := State.copyCount_eq_of_reject reject count
    exact consumed.finishes (by rw [inBackref]; rfl) tokenRead copied.appendSpec
  | waits idle =>
    obtain hf | hf := phase <;> simp [State.busy, hf] at idle
  | _ other => simp [other] at phase

/-! ## The obligations -/

/-- Settles O53: by the inversion of the engine's step. -/
theorem registersCountTheTokens : Obligations.RegistersCountTheTokens := by
  refine ⟨fun s t header h ok => ?_, fun s t ts _ reject _ consumed h ok => ?_⟩
  · cases engineStep_next h with
    | headerShort | headerTooLarge => exact absurd rfl ok
    | headerRead => exact initCall_consumed _
    | waits idle => simp [State.busy, header] at idle
    | _ other => simp [other] at header
  · have move := engineStep_next h
    exact ⟨fun phase => move.keeps_count phase consumed ok,
      fun phase => move.finishes_token phase reject consumed ok⟩

/-- Settles O12: by the bounds check of `nextByte`. -/
theorem nextByteAdvancesByOne : Obligations.NextByteAdvancesByOne := by
  refine fun s => ⟨fun past => ?_, fun within b read => ⟨?_, cursor_add_toNat within⟩⟩
  · rw [State.nextByte_eq, if_neg (Nat.not_le.mpr past)]
  · rw [State.nextByte_eq, if_pos within, read]
    rfl

/-- Settles O13: by the bounds check of `nextCode`. -/
theorem nextCodeAdvancesByTwo : Obligations.NextCodeAdvancesByTwo := by
  refine fun s => ⟨fun past => ?_, fun within v read => ⟨?_, cursor_add_toNat within⟩⟩
  · rw [State.nextCode_eq, if_neg (Nat.not_le.mpr past)]
  · rw [State.nextCode_eq, if_pos within, read]
    rfl

end Sys2Proof.Machine
end

section
/-! SUPPORT. The proofs of the resolver family: the exits of a run with its terminal test, the exits
of `REFS` and `REFX` in terms of it, what a copied run holds, and what `resolve` reads before its
run (R100 to R109). -/

namespace Sys2Proof.Machine

variable {s t : State} {d : BitVec 12} {n k : Nat}

/-! ## What a copied run holds -/

/-- R107 with the source address counted back from the byte's own. -/
theorem CopySpec.replayLaw {cap : Word} {d q i : Nat} {out out' : Memory}
    (h : CopySpec cap (q - d - 1) q n out out') (near : d < q) (hi : i < n) :
    out'.read (q + i) = out'.read (q + i - d - 1) ∧ out'.read (q + i) ≠ none := by
  have source : q - d - 1 + i = q + i - d - 1 := by omega
  exact ⟨source ▸ h.replay i hi, h.written i hi⟩

/-- R108: a run is the bytes between source and destination over and over: within the first
`dst - src` bytes it copies old bytes, from there on it copies its own. -/
theorem CopySpec.cyclic {cap : Word} {src dst i : Nat} {out out' : Memory}
    (h : CopySpec cap src dst n out out') (below : src < dst) (hi : i < n) :
    out'.read (dst + i) = out.read (src + i % (dst - src)) := by
  induction i using Nat.strong_induction_on with
  | _ i ih =>
    rw [h.replay i hi]
    obtain first | again := Nat.lt_or_ge i (dst - src)
    · rw [h.below (src + i) (by omega), Nat.mod_eq_of_lt first]
    · have source : src + i = dst + (i - (dst - src)) := by omega
      rw [source, ih (i - (dst - src)) (by omega) (by omega), ← Nat.mod_eq_sub_mod again]

/-! ## The exits of a run -/

/-- A run is rejected only where it overshoots (R106). -/
theorem State.overshoot_of_copyCount_none (h : s.copyCount n = none) :
    s.outputCursor.toNat + n > s.decodedSize.toNat := by
  by_contra fits
  exact absurd ((State.copyCount_fits (Nat.not_lt.mp fits)).symm.trans h) nofun

/-- The part of `REFS` and `REFX` after their pieces are consumed (R101, R102). -/
def State.finishRun (s : State) (d : BitVec 12) (n : Nat) : Host.Outcome State Fault Refusal :=
  ((s.replay d n).bind fun _ u => .ok () u.terminalTest).finish

theorem State.finishRun_tooFar (far : s.outputCursor.toNat ≤ d.toNat) :
    s.finishRun d n = .next (s.raise .invalidBackReference) := by
  rw [State.finishRun, State.replay, if_pos (State.sourceStart_neg.mpr far)]
  rfl

theorem State.finishRun_rejected (near : d.toNat < s.outputCursor.toNat)
    (past : s.outputCursor.toNat + n > s.decodedSize.toNat)
    (reject : s.config.overshootPolicy = .reject) :
    s.finishRun d n = .next (s.raise .outputSizeMismatch) := by
  rw [State.finishRun, State.replay, if_neg (mt State.sourceStart_neg.mp (Nat.not_le.mpr near)),
    State.copyCount_reject past reject]
  rfl

theorem State.finishRun_copies (near : d.toNat < s.outputCursor.toNat)
    (count : s.copyCount n = some k)
    (room : s.outputCursor.toNat + k ≤ s.config.outCapacity.toNat)
    (written : s.outWrittenTo s.outputCursor.toNat) :
    ∃ out, s.finishRun d n = .next (s.appended out k).terminalTest ∧
      CopySpec s.config.outCapacity (s.outputCursor.toNat - d.toNat - 1) s.outputCursor.toNat k
        s.outMem out := by
  obtain ⟨t, run⟩ := State.replay_finishes near count written room
  obtain ⟨-, j, out, count', rfl, copied⟩ := State.replay_ok run
  obtain rfl : k = j := Option.some.inj (count.symm.trans count')
  exact ⟨out, by rw [State.finishRun, run]; rfl, copied⟩

/-- R105, R106: a run enters ERROR by one of two exits, each with its own condition. -/
theorem State.finishRun_error (h : s.finishRun d n = .next t) (he : t.fsm = .error) :
    t.errCode = some .invalidBackReference ∧ s.outputCursor.toNat ≤ d.toNat ∨
    t.errCode = some .outputSizeMismatch ∧ d.toNat < s.outputCursor.toNat ∧
      s.outputCursor.toNat + n > s.decodedSize.toNat ∧ s.config.overshootPolicy = .reject := by
  obtain ⟨u, -, rfl⟩ | ⟨e, run, rfl⟩ := replay_terminal_next h
  · exact absurd he (State.terminalTest_fsm_ne_error _)
  · obtain ⟨-, ⟨rfl, far⟩ | ⟨rfl, near, rejected, reject⟩⟩ := State.replay_raised run
    · exact .inl ⟨rfl, far⟩
    · exact .inr ⟨rfl, near, State.overshoot_of_copyCount_none rejected, reject⟩

/-- R128 after a run that fits: the call is over exactly when the run ends at `decodedSize`. -/
theorem State.terminalTest_appended {out : Memory}
    (cursor : (s.appended out n).outputCursor.toNat = s.outputCursor.toNat + n)
    (fits : s.outputCursor.toNat + n ≤ s.decodedSize.toNat) :
    (s.appended out n).terminalTest =
      { s with
        outMem := out
        outputCursor := s.outputCursor + BitVec.ofNat 32 n
        resultLen := if s.outputCursor.toNat + n = s.decodedSize.toNat then s.decodedSize
          else s.resultLen
        fsm := if s.outputCursor.toNat + n = s.decodedSize.toNat then .done
          else .awaitMaskBit } := by
  by_cases full : s.outputCursor.toNat + n = s.decodedSize.toNat
  · rw [State.terminalTest_done (cursor.trans full).ge]
    simp only [if_pos full]
    rfl
  · rw [State.terminalTest_more (cursor.trans_lt (Nat.lt_of_le_of_ne fits full))]
    simp only [if_neg full]
    rfl

/-- R107, R109, R128: a run that fits, from written bytes. -/
theorem State.finishRun_fits (near : d.toNat < s.outputCursor.toNat)
    (fits : s.outputCursor.toNat + n ≤ s.decodedSize.toNat)
    (capacity : s.decodedSize.toNat ≤ s.config.outCapacity.toNat)
    (written : s.outWrittenTo s.outputCursor.toNat) (wf : s.outMem.wf = true) :
    ∃ out : Memory,
      s.finishRun d n = .next
        { s with
          outMem := out
          outputCursor := s.outputCursor + BitVec.ofNat 32 n
          resultLen := if s.outputCursor.toNat + n = s.decodedSize.toNat then s.decodedSize
            else s.resultLen
          fsm := if s.outputCursor.toNat + n = s.decodedSize.toNat then .done
            else .awaitMaskBit } ∧
      out.wf = true ∧
      (∀ k < n,
        out.read (s.outputCursor.toNat + k) = out.read (s.outputCursor.toNat + k - d.toNat - 1) ∧
        out.read (s.outputCursor.toNat + k) ≠ none) ∧
      ∀ a, a < s.outputCursor.toNat ∨ s.outputCursor.toNat + n ≤ a →
        out.read a = s.outMem.read a := by
  obtain ⟨out, run, copied⟩ :=
    State.finishRun_copies near (State.copyCount_fits fits) (fits.trans capacity) written
  rw [State.terminalTest_appended (State.appended_toNat copied) fits] at run
  exact ⟨out, run, copied.wf wf, fun _ hk => copied.replayLaw near hk,
    copied.appendSpec.outside⟩

/-- R106: with Truncate an overshooting run ends at `decodedSize`, and the call with it. -/
theorem State.finishRun_truncated (truncate : s.config.overshootPolicy = .truncate)
    (near : d.toNat < s.outputCursor.toNat) (owed : s.outputCursor.toNat < s.decodedSize.toNat)
    (capacity : s.decodedSize.toNat ≤ s.config.outCapacity.toNat)
    (written : s.outWrittenTo s.outputCursor.toNat)
    (past : s.outputCursor.toNat + n > s.decodedSize.toNat) :
    ∃ t, s.finishRun d n = .next t ∧ t.fsm = .done ∧ t.resultLen = s.decodedSize ∧
      t.outputCursor = s.decodedSize ∧
      (∀ a, s.outputCursor.toNat ≤ a → a < s.decodedSize.toNat →
        t.outMem.read a = t.outMem.read (a - d.toNat - 1) ∧ t.outMem.read a ≠ none) ∧
      ∀ a, a < s.outputCursor.toNat ∨ s.decodedSize.toNat ≤ a →
        t.outMem.read a = s.outMem.read a := by
  have upTo : s.outputCursor.toNat + (s.decodedSize.toNat - s.outputCursor.toNat) =
    s.decodedSize.toNat := Nat.add_sub_of_le owed.le
  obtain ⟨out, run, copied⟩ := State.finishRun_copies near
    (State.copyCount_truncate past truncate) (upTo.trans_le capacity) written
  have cursor := (State.appended_toNat copied).trans upTo
  rw [State.terminalTest_done cursor.ge] at run
  refine ⟨_, run, rfl, rfl, BitVec.eq_of_toNat_eq cursor, fun a above below => ?_, fun a ha =>
    copied.appendSpec.outside a (upTo.symm ▸ ha)⟩
  obtain ⟨i, rfl⟩ := Nat.exists_eq_add_of_le above
  exact copied.replayLaw near (by omega)

/-! ## The exits of `REFS` and `REFX` -/

section
variable {lf : BitVec 4} {e : Byte}

theorem exec_refs_codeMissing (past : s.linkCursor.toNat + 2 > s.inputLen.toNat) :
    exec (.refs lf d) s = .next (s.raise .truncatedInput) :=
  (execRefs_eq lf d).trans (if_neg (Nat.not_le.mpr past))

theorem exec_refs_run (code : s.linkCursor.toNat + 2 ≤ s.inputLen.toNat) :
    exec (.refs lf d) s = s.advanceLink.finishRun d (lf.toNat + 2) :=
  (execRefs_eq lf d).trans (if_pos code)

theorem exec_refx_codeMissing (past : s.linkCursor.toNat + 2 > s.inputLen.toNat) :
    exec (.refx d e) s = .next (s.raise .truncatedInput) :=
  (execRefx_eq d e).trans (if_neg (Nat.not_le.mpr past))

theorem exec_refx_byteMissing (code : s.linkCursor.toNat + 2 ≤ s.inputLen.toNat)
    (past : s.byteChunkCursor.toNat + 1 > s.inputLen.toNat) :
    exec (.refx d e) s = .next (s.advanceLink.raise .truncatedInput) :=
  (execRefx_eq d e).trans ((if_pos code).trans (if_neg (Nat.not_le.mpr past)))

theorem exec_refx_run (code : s.linkCursor.toNat + 2 ≤ s.inputLen.toNat)
    (byte : s.byteChunkCursor.toNat + 1 ≤ s.inputLen.toNat) :
    exec (.refx d e) s = s.advanceLink.advanceChunk.finishRun d (e.toNat + 18) :=
  (execRefx_eq d e).trans ((if_pos code).trans (if_pos byte))

end

/-! ## What `resolve` reads -/

/-- Everything a successful `nextByte` does (R92). -/
theorem State.nextByte_ok {b : Byte} (h : s.nextByte = .ok b t) :
    s.byteChunkCursor.toNat + 1 ≤ s.inputLen.toNat ∧
      s.inMem.read s.byteChunkCursor.toNat = some b ∧ t = s.advanceChunk := by
  rw [State.nextByte_eq] at h
  split at h
  · rename_i bound
    split at h
    · rename_i v read
      cases h
      exact ⟨bound, readIn_eq_ok.mp read, rfl⟩
    · cases h
  · cases h

/-- Everything a successful `nextCode` does (R93). -/
theorem State.nextCode_ok {code : BitVec 16} (h : s.nextCode = .ok code t) :
    s.linkCursor.toNat + 2 ≤ s.inputLen.toNat ∧
      readIn16 s.inMem s.linkCursor.toNat = .ok code ∧ t = s.advanceLink := by
  rw [State.nextCode_eq] at h
  split at h
  · rename_i bound
    split at h
    · rename_i v read
      cases h
      exact ⟨bound, read, rfl⟩
    · cases h
  · cases h

/-- Everything a `resolve` that succeeds does (R100): it reads a back-reference and copies its
run. -/
theorem State.resolve_ok (h : s.resolve = .ok () t) :
    ∃ u d n i, BackrefRead s u d n i ∧ u.replay d n = .ok () t := by
  obtain ⟨code, u, hcode, h⟩ := Res.bind_eq_ok h
  obtain ⟨bound, read, rfl⟩ := State.nextCode_ok hcode
  by_cases form : linkLengthField code = 0
  · rw [if_pos form] at h
    obtain ⟨e, v, hbyte, run⟩ := Res.bind_eq_ok h
    obtain ⟨bound', read', rfl⟩ := State.nextByte_ok hbyte
    exact ⟨_, _, _, _, .extended code e bound read form bound' read', run⟩
  · rw [if_neg form] at h
    exact ⟨_, _, _, _, .short code bound read form, h⟩

/-- R109 for the run alone: OUT and the output cursor change, by as many bytes as are copied. -/
theorem State.replay_sideEffects (h : s.replay d n = .ok () t) :
    ∃ k, t = s.appended t.outMem k ∧ t.outputCursor.toNat = s.outputCursor.toNat + k ∧
      (∀ i < k, t.outMem.read (s.outputCursor.toNat + i) ≠ none) ∧
      (∀ a, a < s.outputCursor.toNat ∨ s.outputCursor.toNat + k ≤ a →
        t.outMem.read a = s.outMem.read a) ∧
      (s.config.overshootPolicy = .reject → k = n) := by
  obtain ⟨-, k, out, count, rfl, copied⟩ := State.replay_ok h
  exact ⟨k, rfl, State.appended_toNat copied, copied.written, copied.appendSpec.outside,
    fun reject => State.copyCount_eq_of_reject reject count⟩

/-! ## The obligations -/

/-- Settles O22: past its link code `REFS` is a run that fits. -/
theorem refsAppendsItsRun : Obligations.RefsAppendsItsRun := by
  intro lf d s code near fits capacity written wf
  rw [exec_refs_run code]
  exact State.finishRun_fits (s := s.advanceLink) near fits capacity written wf

/-- Settles O23: past its link code and extension byte `REFX` is a run that fits. -/
theorem refxAppendsItsRun : Obligations.RefxAppendsItsRun := by
  intro d e s code byte near fits capacity written wf
  rw [exec_refx_run code byte]
  exact State.finishRun_fits (s := s.advanceLink.advanceChunk) near fits capacity written wf

/-- Settles O24: the link code is tested before the run, and a run has two error exits. -/
theorem refsRaisesInOrder : Obligations.RefsRaisesInOrder := by
  refine fun lf d s => ⟨exec_refs_codeMissing, fun code far => ?_,
    fun code near past reject => ?_, fun t h he => ?_⟩
  · rw [exec_refs_run code]
    exact State.finishRun_tooFar (s := s.advanceLink) far
  · rw [exec_refs_run code]
    exact State.finishRun_rejected (s := s.advanceLink) near past reject
  · obtain code | past := le_or_gt (s.linkCursor.toNat + 2) s.inputLen.toNat
    · rw [exec_refs_run code] at h
      obtain ⟨errCode, far⟩ | ⟨errCode, overshoot⟩ := State.finishRun_error h he
      · exact .inr (.inl ⟨errCode, code, far⟩)
      · exact .inr (.inr ⟨errCode, code, overshoot⟩)
    · rw [exec_refs_codeMissing past] at h
      cases h
      exact .inl ⟨rfl, past⟩

/-- Settles O25: the two pieces are tested before the run, and a run has two error exits. -/
theorem refxRaisesInOrder : Obligations.RefxRaisesInOrder := by
  refine fun d e s => ⟨exec_refx_codeMissing, exec_refx_byteMissing, fun code byte far => ?_,
    fun code byte near past reject => ?_, fun t h he => ?_⟩
  · rw [exec_refx_run code byte]
    exact State.finishRun_tooFar (s := s.advanceLink.advanceChunk) far
  · rw [exec_refx_run code byte]
    exact State.finishRun_rejected (s := s.advanceLink.advanceChunk) near past reject
  · obtain code | past := le_or_gt (s.linkCursor.toNat + 2) s.inputLen.toNat
    · obtain byte | past := le_or_gt (s.byteChunkCursor.toNat + 1) s.inputLen.toNat
      · rw [exec_refx_run code byte] at h
        obtain ⟨errCode, far⟩ | ⟨errCode, overshoot⟩ := State.finishRun_error h he
        · exact .inr (.inl ⟨errCode, code, byte, far⟩)
        · exact .inr (.inr ⟨errCode, code, byte, overshoot⟩)
      · rw [exec_refx_byteMissing code past] at h
        cases h
        exact .inl ⟨rfl, .inr past⟩
    · rw [exec_refx_codeMissing past] at h
      cases h
      exact .inl ⟨rfl, .inl past⟩

/-- Settles O28: the streams move as the form read says, the rest is what the run changes. -/
theorem resolveSideEffects : Obligations.ResolveSideEffects := by
  intro s t h
  obtain ⟨u, d, n, i, pieces, run⟩ := State.resolve_ok h
  obtain ⟨k, changed, cursor, written, outside, whole⟩ := State.replay_sideEffects run
  cases pieces with
  | short code bound read form =>
    refine ⟨code, k, read, ?_, ?_, ?_, cursor, written, outside,
      fun reject => ⟨fun _ => whole reject, fun extended => absurd extended form⟩⟩
    · rw [if_neg form]
      exact changed
    · rw [changed]
      exact cursor_add_toNat bound
    · rw [changed, if_neg form]
      rfl
  | extended code e bound read form bound' read' =>
    refine ⟨code, k, read, ?_, ?_, ?_, cursor, written, outside,
      fun reject => ⟨fun short => absurd form short, fun _ => ⟨e, read', whole reject⟩⟩⟩
    · rw [if_pos form]
      exact changed
    · rw [changed]
      exact cursor_add_toNat bound
    · rw [changed, if_pos form]
      exact cursor_add_toNat bound'

/-- Settles O29: a run that is copied starts no further back than the output reaches. -/
theorem runFollowsTheReplayLaw : Obligations.RunFollowsTheReplayLaw := by
  intro d n s t h
  obtain ⟨near, k, out, count, rfl, copied⟩ := State.replay_ok h
  exact ⟨k, count, fun i hi => ⟨by omega, copied.replayLaw near hi⟩⟩

/-- Settles O30: the source of a run lies `distance + 1` bytes below its destination. -/
theorem runRepeatsThePrecedingBytes : Obligations.RunRepeatsThePrecedingBytes := by
  intro d n s t h k hk i hi
  obtain ⟨near, j, out, count, rfl, copied⟩ := State.replay_ok h
  obtain rfl : k = j := Option.some.inj (hk.symm.trans count)
  have period : s.outputCursor.toNat - (s.outputCursor.toNat - d.toNat - 1) = d.toNat + 1 := by
    omega
  have cyclic := copied.cyclic (by omega) hi
  rwa [period, Nat.sub_sub] at cyclic

/-- Settles O31: past its pieces each form is a run that Truncate cuts. -/
theorem truncatePolicyCutsTheRun : Obligations.TruncatePolicyCutsTheRun := by
  intro d s truncate code near owed capacity written
  refine ⟨fun lf past => ?_, fun e byte past => ?_⟩
  · rw [exec_refs_run code]
    exact State.finishRun_truncated (s := s.advanceLink) truncate near owed capacity written past
  · rw [exec_refx_run code byte]
    exact State.finishRun_truncated (s := s.advanceLink.advanceChunk) truncate near owed capacity
      written past

/-- Settles O5: by the arithmetic of the two fields and of their code. -/
theorem linkCodeSplits : Obligations.LinkCodeSplits := fun code =>
  ⟨linkDistance_toNat code, linkLengthField_toNat code, linkCode_fields code⟩

end Sys2Proof.Machine
end

section
/-! SUPPORT. The proofs of the state machine family, step by step: the steps of AWAIT_MASK_BIT,
DISPATCH, LITERAL and BACKREF as the operations the spec writes them with, START, and what DONE and
ERROR keep (R122 to R130). -/

namespace Sys2Proof.Machine

variable {s t : State}

/-! ## The operations of the steps -/

/-- R91 by cases: with an unread bit a shift, else a refill within the input and a shift. -/
theorem State.nextBit_eq : s.nextBit =
    if s.maskBitsLeft = 0 then
      if s.maskCursor.toNat + 4 ≤ s.inputLen.toNat then
        match readIn32 s.inMem s.maskCursor.toNat with
        | .ok w => .ok w.msb (s.loadMask w).shiftMask
        | .error f => .fault f
      else .raised .truncatedInput s
    else .ok s.maskWord.msb s.shiftMask := by
  unfold State.nextBit State.refill
  simp only [State.inBounds_iff, maskWordBytes]
  by_cases empty : s.maskBitsLeft = 0
  · by_cases bound : s.maskCursor.toNat + 4 ≤ s.inputLen.toNat
    · simp only [empty, bound, if_true]
      cases readIn32 s.inMem s.maskCursor.toNat <;> rfl
    · simp only [empty, bound, if_true, if_false, Res.bind_raised]
  · simp only [empty, if_false, Res.bind_ok]

/-- R128 as one record update, where `n` is the number of bytes produced. -/
theorem State.terminalTest_eq {n : Nat} (produced : s.outputCursor.toNat = n) : s.terminalTest =
    { s with
      resultLen := if n ≥ s.decodedSize.toNat then s.decodedSize else s.resultLen
      fsm := if n ≥ s.decodedSize.toNat then .done else .awaitMaskBit } := by
  subst produced
  by_cases full : s.outputCursor.toNat ≥ s.decodedSize.toNat
  · rw [State.terminalTest_done full, if_pos full, if_pos full]
    rfl
  · rw [State.terminalTest_more (Nat.not_le.mp full), if_neg full, if_neg full]
    rfl

/-- R92, R126: the next byte of the byte-chunk stream, appended to OUT. -/
def State.copyLiteral (s : State) : Res Unit := s.nextByte.bind fun b t => t.appendByte b

/-- A part of a step that writes the output cursor, with the terminal test and the end of the step
(R120, R128). -/
def Res.endToken (r : Res Unit) : Host.Outcome State Fault Refusal :=
  (r.bind fun _ t => .ok () t.terminalTest).finish

theorem engineStep_literal_of_read {b : Byte} (phase : s.fsm = .literal)
    (bound : s.byteChunkCursor.toNat + 1 ≤ s.inputLen.toNat)
    (read : s.inMem.read s.byteChunkCursor.toNat = some b) :
    engineStep s = exec (.lit b) s := by
  rw [engineStep_literal phase, State.fetchLiteral_eq, if_pos bound, readIn_eq_ok.mpr read]
  rfl

theorem engineStep_literal_missing (phase : s.fsm = .literal)
    (past : s.byteChunkCursor.toNat + 1 > s.inputLen.toNat) :
    engineStep s = .next (s.raise .truncatedInput) := by
  rw [engineStep_literal phase, State.fetchLiteral_eq, if_neg (Nat.not_le.mpr past)]
  rfl

/-- R126: the step of state LITERAL reads once what the fetch and `LIT` consume between them. -/
theorem engineStep_literal_eq (phase : s.fsm = .literal) :
    engineStep s = s.copyLiteral.endToken := by
  rw [engineStep_literal phase, State.fetchLiteral_eq, State.copyLiteral, State.nextByte_eq]
  by_cases bound : s.byteChunkCursor.toNat + 1 ≤ s.inputLen.toNat
  · rw [if_pos bound, if_pos bound]
    cases readIn s.inMem s.byteChunkCursor.toNat with
    | error f => rfl
    | ok b =>
      change execLit b s = _
      rw [execLit, State.takeByte_eq, if_pos bound]
      rfl
  · rw [if_neg bound, if_neg bound]
    rfl

/-- R127: the step of state BACKREF is `resolve()`, then the terminal test: the pieces the fetch
looks at are those `resolve` reads, and each form consumes them before its run. -/
theorem engineStep_backref_eq (phase : s.fsm = .backref) :
    engineStep s = s.resolve.endToken := by
  rw [engineStep_backref phase, State.fetchBackref_eq, State.resolve, State.nextCode_eq]
  by_cases bound : s.linkCursor.toNat + 2 ≤ s.inputLen.toNat
  · rw [if_pos bound, if_pos bound]
    cases readIn16 s.inMem s.linkCursor.toNat with
    | error f => rfl
    | ok code =>
      by_cases extended : linkLengthField code = 0
      · simp only [if_pos extended, Res.bind_ok, State.nextByte_eq,
          State.advanceLink_byteChunkCursor, State.advanceLink_inputLen, State.advanceLink_inMem]
        by_cases bound' : s.byteChunkCursor.toNat + 1 ≤ s.inputLen.toNat
        · simp only [bound', if_true]
          cases readIn s.inMem s.byteChunkCursor.toNat with
          | error f => rfl
          | ok e => exact exec_refx_run bound bound'
        · simp only [bound', if_false]
          rfl
      · simp only [if_neg extended, Res.bind_ok]
        exact exec_refs_run bound
  · rw [if_neg bound, if_neg bound]
    rfl

theorem engineStep_dispatch_literal (phase : s.fsm = .dispatch) (bit : s.ctrlBit = true) :
    engineStep s = .next (s.goto .literal) := by
  rw [engineStep_dispatch phase, State.dispatchStep, bit]

theorem engineStep_dispatch_backref (phase : s.fsm = .dispatch) (bit : s.ctrlBit = false) :
    engineStep s = .next (s.goto .backref) := by
  rw [engineStep_dispatch phase, State.dispatchStep, bit]

theorem not_busy_of_over (ended : s.over = true) : s.busy = false := by
  unfold State.over State.done State.error at ended
  cases hf : s.fsm <;> simp_all [busy_eq, Fsm.inLoop]

theorem hostStep_start (idle : s.busy = false) : hostStep .start s = .next s.acceptStart := by
  rw [hostStep, idle]
  rfl

/-! ## The obligations -/

/-- Settles O33: `endToken` is the terminal test with the end of the step. -/
theorem backrefStepIsResolve : Obligations.BackrefStepIsResolve :=
  fun _ phase => engineStep_backref_eq phase

/-- Settles O34: `nextBit` raises only on a refill, with no register changed. -/
theorem awaitStepLatchesTheBit : Obligations.AwaitStepLatchesTheBit := by
  intro s phase
  rw [engineStep_awaitMaskBit phase, State.awaitStep]
  refine ⟨fun c t taken => ?_, fun e t raised => ?_⟩
  · rw [taken]
    rfl
  · obtain ⟨rfl, rfl, -⟩ := State.nextBit_raised raised
    rw [raised]
    exact ⟨rfl, rfl⟩

/-- Settles O35: by the value of the latch. -/
theorem dispatchStepFollowsTheLatch : Obligations.DispatchStepFollowsTheLatch :=
  fun _ phase => ⟨engineStep_dispatch_literal phase, engineStep_dispatch_backref phase⟩

/-- Settles O39: START looks only at `busy`, which the three idle states lack. -/
theorem startBeginsACallUnlessBusy : Obligations.StartBeginsACallUnlessBusy := by
  refine fun s => ⟨fun phase => ⟨s.acceptStart, hostStep_start ?_, rfl, rfl, rfl, rfl⟩,
    fun phase => ?_⟩
  · rw [busy_eq]
    obtain phase | phase | phase := phase <;> rw [phase] <;> rfl
  · have busy : s.busy = true := by rw [busy_eq]; exact decide_eq_true phase.symm
    rw [hostStep, busy]
    rfl

/-- Settles O18: `LIT` ends in the terminal test at a cursor that has not wrapped. -/
theorem litAppendsItsByte : Obligations.LitAppendsItsByte := by
  intro b s bound room
  have step : exec (.lit b) s = .next
      (s.advanceChunk.appended (s.outMem.write s.outputCursor.toNat b) 1).terminalTest :=
    (execLit_eq b).trans ((if_pos bound).trans (if_pos room))
  rw [step, State.terminalTest_eq (cursor_add_toNat room)]
  rfl

/-- Settles O19: the step runs the `LIT` of the byte read, and a byte is written once. -/
theorem literalStepCopiesTheNextByte : Obligations.LiteralStepCopiesTheNextByte := by
  refine fun s phase => ⟨engineStep_literal_missing phase, fun bound room b read => ?_⟩
  have step := engineStep_literal_of_read phase bound read
  exact ⟨step, _, step.trans (litAppendsItsByte b s bound room), Memory.read_write_self ..,
    fun a other => Memory.read_write_ne _ _ other, cursor_add_toNat bound, cursor_add_toNat room⟩

/-- Settles O50: the other moves write IN, INPUT_LEN or the host's side, and the engine waits. -/
theorem onlyStartAndResetLeaveTheResult : Obligations.OnlyStartAndResetLeaveTheResult := by
  intro s t m ended h notStart notReset
  cases m with
  | writeIn | writeInputLen =>
    obtain ⟨-, rfl⟩ := whenNotBusy_next h
    exact ⟨rfl, rfl, rfl, rfl, rfl⟩
  | start => exact absurd rfl notStart
  | reset => exact absurd rfl notReset
  | poll | readInputLen | readErrCode | readResultLen =>
    cases h
    exact ⟨rfl, rfl, rfl, rfl, rfl⟩
  | readOut a =>
    obtain ⟨b, rfl⟩ := hostReadOut_next h
    exact ⟨rfl, rfl, rfl, rfl, rfl⟩
  | wait =>
    obtain rfl : s = t := by
      simpa [hostStep, engineStep_of_not_busy (not_busy_of_over ended)] using h
    exact ⟨rfl, rfl, rfl, rfl, rfl⟩

end Sys2Proof.Machine
end

section
/-! SUPPORT. The proofs of the state machine family for whole calls: every part of a step agrees
with the same part of the big-step function, so the engine always steps, every call ends, and it
computes that function (R100, R120, R131, R133). -/

namespace Sys2Proof.Machine

variable {s t : State}

/-! ## Memories that hold a byte list -/

/-- The first bytes of a memory are those of a list. -/
def Memory.holds (m : Memory) (bs : List Byte) : Prop := ∀ a < bs.length, m.read a = bs[a]?

section
variable {m : Memory} {bs : List Byte} {a : Nat}

theorem Memory.holds.read_byteAt (h : m.holds bs) (ha : a < bs.length) :
    m.read a = some (byteAt bs a) := by
  rw [h a ha, byteAt, List.getD_eq_getElem _ _ ha, List.getElem?_eq_getElem ha]

theorem Memory.holds.readIn16_eq (h : m.holds bs) (ha : a + 2 ≤ bs.length) :
    readIn16 m a = .ok (be16 (byteAt bs a) (byteAt bs (a + 1))) :=
  readIn16_eq_ok.mpr ⟨_, _, h.read_byteAt (by omega), h.read_byteAt (by omega), rfl⟩

theorem Memory.holds.readIn32_eq (h : m.holds bs) (ha : a + 4 ≤ bs.length) :
    readIn32 m a = .ok (wordAt bs a) :=
  readIn32_eq_ok.mpr ⟨_, _, _, _, h.read_byteAt (by omega), h.read_byteAt (by omega),
    h.read_byteAt (by omega), h.read_byteAt (by omega), rfl⟩

theorem Memory.holds.append_byte (h : m.holds bs) (b : Byte) :
    (m.write bs.length b).holds (bs ++ [b]) := by
  intro a ha
  rw [List.length_append, List.length_singleton] at ha
  obtain old | rfl : a < bs.length ∨ a = bs.length := by omega
  · rw [Memory.read_write_ne _ _ old.ne, List.getElem?_append_left old, h a old]
  · simp

/-- R107: the copy loop appends to OUT what `replayBytes` appends to the bytes produced. -/
theorem Memory.holds.copyRun_replayBytes {cap : Word} {d n : Nat} (h : m.holds bs)
    (near : d < bs.length) (room : bs.length + n ≤ cap.toNat) :
    ∃ out, copyRun cap (bs.length - d - 1) bs.length n m = .ok out ∧
      out.holds (replayBytes d n bs) := by
  induction n generalizing m bs with
  | zero => exact ⟨m, rfl, h⟩
  | succ n ih =>
    have longer (b : Byte) : (bs ++ [b]).length = bs.length + 1 := by simp
    obtain ⟨out, copied, holds⟩ := ih (h.append_byte (byteAt bs (bs.length - d - 1)))
      (by rw [longer]; omega) (by rw [longer]; omega)
    have read := readOut_eq_ok.mpr (h.read_byteAt (a := bs.length - d - 1) (by omega))
    have write := writeOut_eq_ok.mpr ⟨show bs.length < cap.toNat by omega,
      (rfl : m.write bs.length (byteAt bs (bs.length - d - 1)) = _)⟩
    have next : bs.length + 1 - d - 1 = bs.length - d - 1 + 1 := by omega
    rw [longer, next] at copied
    exact ⟨out, by simp only [copyRun, read, write, copied], holds⟩

end

theorem replayBytes_length (d n : Nat) (out : List Byte) :
    (replayBytes d n out).length = out.length + n := by
  induction n generalizing out with
  | zero => rfl
  | succ n ih =>
    rw [replayBytes, ih, List.length_append, List.length_singleton]
    omega

/-- The host's duty gives the input as a byte list (R172). -/
theorem exists_holdsInput (loaded : s.inputLoaded) : ∃ input, s.holdsInput input := by
  refine ⟨(List.range s.inputLen.toNat).map fun a => (s.inMem.read a).getD 0, by simp,
    fun a ha => ?_⟩
  rw [List.length_map, List.length_range] at ha
  obtain ⟨b, hb⟩ := Option.ne_none_iff_exists'.mp (loaded a ha)
  simp [hb, ha]

/-! ## The state of a call and its `Scan` -/

/-- What a call works on after its header: the configuration, its input, its decoded size. -/
structure Call where
  config : Config
  input : List Byte
  size : Nat

/-- The unread control bits of the mask register, in stream order (R12, R42). -/
def State.unreadBits (s : State) : List Bool :=
  (List.range s.maskBitsLeft.toNat).map fun j => s.maskWord.getMsbD j

/-- The working registers and OUT of a call are where the big-step function has got to. -/
structure State.Tracks (call : Call) (s : State) (sc : Scan) : Prop where
  config : s.config = call.config
  input : s.holdsInput call.input
  size : s.decodedSize.toNat = call.size
  fits : call.size ≤ call.config.outCapacity.toNat
  maskCursor : s.maskCursor.toNat = sc.maskCursor
  maskBits : s.unreadBits = sc.maskBits
  link : s.linkCursor.toNat = sc.link
  chunk : s.byteChunkCursor.toNat = sc.chunk
  produced : s.outputCursor.toNat = sc.out.length
  owed : sc.out.length ≤ call.size
  output : s.outMem.holds sc.out

/-- A part of a step agrees with a part of the big-step function: both go on, with what `post` says
of the results, or both raise the same error. The part of a step does not fault. -/
inductive Agrees {α β : Type} (call : Call) (post : α → State → β → Prop) :
    Res α → Except ErrorKind β → Prop where
  | ok (a : α) (t : State) (b : β) (holds : post a t b) : Agrees call post (.ok a t) (.ok b)
  | raised (e : ErrorKind) (t : State) (size : t.decodedSize.toNat = call.size) :
      Agrees call post (.raised e t) (.error e)

/-- The same value was taken from the input on both sides, and no byte was produced. -/
inductive Taken {α : Type} (call : Call) (sc : Scan) (a : α) (t : State) : α × Scan → Prop where
  | mk (sc' : Scan) (tracks : t.Tracks call sc') (same : sc'.out = sc.out) :
      Taken call sc a t (a, sc')

/-- The same bytes were produced on both sides, more than `made`. -/
def Grown (call : Call) (made : Nat) (_ : Unit) (t : State) (sc : Scan) : Prop :=
  t.Tracks call sc ∧ made < sc.out.length

section
variable {call : Call} {sc : Scan} {α β α' β' : Type} {post : α → State → β → Prop}
  {post' : α' → State → β' → Prop} {r : Res α} {x : Except ErrorKind β}

theorem Agrees.bind {k : α → State → Res α'} {k' : β → Except ErrorKind β'}
    (h : Agrees call post r x)
    (next : ∀ a t b, post a t b → Agrees call post' (k a t) (k' b)) :
    Agrees call post' (r.bind k) (x >>= k') := by
  cases h with
  | ok a t b holds => exact next a t b holds
  | raised e t size => exact .raised e t size

/-- A part that agrees with the big-step function ends its step in a next state. -/
theorem Agrees.next {f : α → State → State} (h : Agrees call post r x) :
    ∃ t, (r.bind fun a t => .ok () (f a t)).finish = .next t := by
  cases h with
  | ok a t b holds => exact ⟨f a t, rfl⟩
  | raised e t size => exact ⟨t.raise e, rfl⟩

/-! ## The input streams -/

/-- The bounds check of a read is that of the big-step function (R45). -/
theorem State.Tracks.within (h : s.Tracks call sc) {c : Word} {n : Nat} :
    c.toNat + n ≤ s.inputLen.toNat ↔ c.toNat + n ≤ call.input.length := by
  rw [h.input.1]

/-- R91: taking a bit takes the first of the unread ones. -/
theorem State.unreadBits_cons (left : s.maskBitsLeft ≠ 0) :
    s.unreadBits = s.maskWord.msb :: s.shiftMask.unreadBits := by
  have pred : s.maskBitsLeft.toNat = (s.maskBitsLeft - 1).toNat + 1 := by bv_omega
  rw [State.unreadBits, pred, List.range_succ_eq_map, List.map_cons, List.map_map,
    ← BitVec.msb_eq_getMsbD_zero]
  refine congrArg _ (List.map_congr_left fun j _ => ?_)
  simp

/-- R91: a refill makes the bits of the word loaded the unread ones. -/
theorem controlBits_loadMask (s : State) (w : Word) :
    controlBits w = w.msb :: (s.loadMask w).shiftMask.unreadBits :=
  State.unreadBits_cons (s := s.loadMask w) (by decide : BitVec.ofNat 6 32 ≠ 0)

theorem State.unreadBits_nil (empty : s.maskBitsLeft = 0) : s.unreadBits = [] := by
  rw [State.unreadBits, empty]
  rfl

/-- R91, on both sides. -/
theorem State.Tracks.nextBit (h : s.Tracks call sc) :
    Agrees call (Taken call sc) s.nextBit (sc.bit call.input) := by
  have bits := h.maskBits
  rw [State.nextBit_eq, Scan.bit]
  by_cases empty : s.maskBitsLeft = 0
  · rw [State.unreadBits_nil empty] at bits
    rw [if_pos empty, ← bits, ← h.maskCursor]
    by_cases bound : s.maskCursor.toNat + 4 ≤ s.inputLen.toNat
    · have bound' : s.maskCursor.toNat + maskWordBytes ≤ call.input.length := h.within.mp bound
      rw [if_pos bound, Memory.holds.readIn32_eq h.input.2 bound']
      dsimp only
      rw [if_pos bound', controlBits_loadMask s]
      exact .ok _ _ _ ⟨_, { h with
        maskCursor := cursor_add_toNat bound
        maskBits := rfl }, rfl⟩
    · have past : ¬ s.maskCursor.toNat + maskWordBytes ≤ call.input.length :=
        mt h.within.mpr bound
      rw [if_neg bound]
      simp only [if_neg past]
      exact .raised _ _ h.size
  · rw [State.unreadBits_cons empty] at bits
    rw [if_neg empty, ← bits]
    exact .ok _ _ _ ⟨_, { h with maskBits := rfl }, rfl⟩

/-- R92, on both sides. -/
theorem State.Tracks.nextByte (h : s.Tracks call sc) :
    Agrees call (Taken call sc) s.nextByte (sc.byte call.input) := by
  rw [State.nextByte_eq, Scan.byte, ← h.chunk]
  by_cases bound : s.byteChunkCursor.toNat + 1 ≤ s.inputLen.toNat
  · have bound' := h.within.mp bound
    rw [if_pos bound, if_pos bound',
      readIn_eq_ok.mpr (Memory.holds.read_byteAt h.input.2 bound')]
    exact .ok _ _ _ ⟨_, { h with chunk := cursor_add_toNat bound }, rfl⟩
  · rw [if_neg bound, if_neg (mt h.within.mpr bound)]
    exact .raised _ _ h.size

/-- R93, on both sides. -/
theorem State.Tracks.nextCode (h : s.Tracks call sc) :
    Agrees call (Taken call sc) s.nextCode (sc.code call.input) := by
  rw [State.nextCode_eq, Scan.code, ← h.link]
  by_cases bound : s.linkCursor.toNat + 2 ≤ s.inputLen.toNat
  · have bound' : s.linkCursor.toNat + linkCodeBytes ≤ call.input.length := h.within.mp bound
    rw [if_pos bound, if_pos bound', Memory.holds.readIn16_eq h.input.2 bound']
    exact .ok _ _ _ ⟨_, { h with link := cursor_add_toNat bound }, rfl⟩
  · have past : ¬ s.linkCursor.toNat + linkCodeBytes ≤ call.input.length := mt h.within.mpr bound
    rw [if_neg bound, if_neg past]
    exact .raised _ _ h.size

/-! ## The bytes produced -/

/-- Bytes appended on both sides (R47, R109). -/
theorem State.Tracks.appended (h : s.Tracks call sc) {n : Nat} {out : Memory} {bytes : List Byte}
    (positive : 0 < n) (length : bytes.length = sc.out.length + n)
    (fits : sc.out.length + n ≤ call.size) (output : out.holds bytes) :
    Grown call sc.out.length () (s.appended out n) { sc with out := bytes } := by
  have room : s.outputCursor.toNat + n ≤ s.config.outCapacity.toNat := by
    rw [h.produced, h.config]
    exact fits.trans h.fits
  refine ⟨{ h with produced := ?_, owed := length.trans_le fits, output := output }, ?_⟩
  · rw [length, ← h.produced]
    exact cursor_add_toNat room
  · change _ < bytes.length
    omega

theorem State.Tracks.appendByte (h : s.Tracks call sc) (owed : sc.out.length < call.size)
    (b : Byte) :
    Agrees call (Grown call sc.out.length) (s.appendByte b)
      (.ok { sc with out := sc.out ++ [b] }) := by
  have room : s.outputCursor.toNat < s.config.outCapacity.toNat := by
    rw [h.produced, h.config]
    exact owed.trans_le h.fits
  rw [State.appendByte_eq, if_pos room, h.produced]
  exact .ok _ _ _ (h.appended one_pos List.length_append owed (h.output.append_byte b))

/-- A run of which `k` bytes are copied, on both sides. -/
theorem State.Tracks.copies (h : s.Tracks call sc) {d : BitVec 12} {n k : Nat}
    (near : d.toNat < sc.out.length) (count : s.copyCount n = some k) (positive : 0 < k)
    (fits : sc.out.length + k ≤ call.size) : Agrees call (Grown call sc.out.length) (s.replay d n)
      (.ok { sc with out := replayBytes d.toNat k sc.out }) := by
  obtain ⟨out, copied, output⟩ := h.output.copyRun_replayBytes (cap := call.config.outCapacity) near
    (fits.trans h.fits)
  have far : ¬ s.sourceStart d < 0 := by
    rw [State.sourceStart_neg, h.produced]
    omega
  rw [State.replay, if_neg far, count, State.sourceStart_toNat, h.produced, h.config]
  simp only [copied]
  exact .ok _ _ _ (h.appended positive (replayBytes_length ..) fits output)

/-- R105 to R107: a run of at least one byte. -/
theorem State.Tracks.replay (h : s.Tracks call sc) (owed : sc.out.length < call.size)
    (d : BitVec 12) {n : Nat} (positive : 0 < n) :
    Agrees call (Grown call sc.out.length) (s.replay d n)
      (sc.run call.config.overshootPolicy call.size d.toNat n) := by
  unfold Scan.run
  by_cases far : sc.out.length ≤ d.toNat
  · rw [if_pos far, State.replay, if_pos (by rwa [State.sourceStart_neg, h.produced])]
    exact .raised _ _ h.size
  have near := Nat.not_le.mp far
  rw [if_neg far]
  by_cases fits : sc.out.length + n ≤ call.size
  · have count : s.copyCount n = some n := State.copyCount_fits (by rwa [h.produced, h.size])
    rw [if_pos fits]
    exact h.copies near count positive fits
  have past : s.outputCursor.toNat + n > s.decodedSize.toNat := by
    rw [h.produced, h.size]
    exact Nat.not_le.mp fits
  rw [if_neg fits]
  cases policy : call.config.overshootPolicy with
  | reject =>
    rw [State.replay, if_neg (by rwa [State.sourceStart_neg, h.produced]),
      State.copyCount_reject past (by rw [h.config, policy])]
    exact .raised _ _ h.size
  | truncate =>
    have count := State.copyCount_truncate past (by rw [h.config, policy])
    rw [h.produced, h.size] at count
    exact h.copies near count (by omega) (by omega)

/-! ## The tokens -/

/-- The literal of a token, after its control bit (R126). -/
def Scan.literal (sc : Scan) (input : List Byte) : Except ErrorKind Scan :=
  sc.byte input >>= fun p => .ok { p.2 with out := p.2.out ++ [p.1] }

/-- The back-reference of a token, after its control bit (R100). -/
def Scan.backref (sc : Scan) (policy : OvershootPolicy) (size : Nat) (input : List Byte) :
    Except ErrorKind Scan :=
  sc.code input >>= fun p =>
    if linkLengthField p.1 = 0 then
      p.2.byte input >>= fun q =>
        q.2.run policy size (linkDistance p.1).toNat (extendedRun q.1)
    else p.2.run policy size (linkDistance p.1).toNat (shortRun (linkLengthField p.1))

theorem Scan.token_eq (policy : OvershootPolicy) (size : Nat) (input : List Byte) :
    sc.token policy size input = sc.bit input >>= fun p =>
      if p.1 then p.2.literal input else p.2.backref policy size input := rfl

theorem State.Tracks.copyLiteral (h : s.Tracks call sc) (owed : sc.out.length < call.size) :
    Agrees call (Grown call sc.out.length) s.copyLiteral (sc.literal call.input) := by
  refine h.nextByte.bind ?_
  rintro b t _ ⟨sc', tracks, same⟩
  rw [← same] at owed ⊢
  exact tracks.appendByte owed _

/-- R100, on both sides. -/
theorem State.Tracks.resolve (h : s.Tracks call sc) (owed : sc.out.length < call.size) :
    Agrees call (Grown call sc.out.length) s.resolve
      (sc.backref call.config.overshootPolicy call.size call.input) := by
  refine h.nextCode.bind ?_
  rintro code t _ ⟨sc', tracks, same⟩
  rw [← same] at owed ⊢
  by_cases extended : linkLengthField code = 0
  · simp only [if_pos extended]
    refine tracks.nextByte.bind ?_
    rintro e u _ ⟨sc'', tracks', same'⟩
    rw [← same'] at owed ⊢
    exact tracks'.replay owed _ (Nat.add_pos_right _ (by decide : 0 < extendedRunBias))
  · simp only [if_neg extended]
    exact tracks.replay owed _ (Nat.add_pos_right _ (by decide : 0 < shortRunBias))

/-! ## The steps of the loop -/

/-- The registers the state machine itself writes are not part of what a `Scan` tracks. -/
theorem State.Tracks.dispatched (h : s.Tracks call sc) (c : Bool) (f : Fsm) :
    ((s.latch c).goto f).Tracks call sc := { h with }

/-- The engine ends the call within `n` steps, with this result; `size` is what `decodedSize` then
holds. -/
def State.EndsWithin (s : State) (size n : Nat) (result : Except ErrorKind (List Byte)) : Prop :=
  ∃ k t, engineRun k s = .next t ∧ t.over = true ∧ k ≤ n ∧ t.decodedSize.toNat = size ∧
    t.callResult = some result

variable {size n : Nat} {result : Except ErrorKind (List Byte)}

theorem State.EndsWithin.of_over (ended : s.over = true) (hsize : s.decodedSize.toNat = size)
    (hresult : s.callResult = some result) : s.EndsWithin size n result :=
  ⟨0, s, rfl, ended, Nat.zero_le _, hsize, hresult⟩

theorem State.EndsWithin.of_step (step : engineStep s = .next t) (h : t.EndsWithin size n result) :
    s.EndsWithin size (n + 1) result := by
  obtain ⟨k, u, run, ended, le, hsize, hresult⟩ := h
  exact ⟨k + 1, u, by rw [engineRun, step]; exact run, ended, Nat.succ_le_succ le, hsize, hresult⟩

/-- A step that agrees with the first part of what is left of the big-step function leads to the
end of the call if each of the states it can go on to does. -/
theorem Agrees.endsWithin {f : α → State → State} {rest : β → Except ErrorKind (List Byte)}
    (h : Agrees call post r x) (step : engineStep s = (r.bind fun a t => .ok () (f a t)).finish)
    (next : ∀ a t b, post a t b → (f a t).EndsWithin call.size n (rest b)) :
    s.EndsWithin call.size (n + 1) (x >>= rest) := by
  cases h with
  | ok a t b holds => exact .of_step step (next a t b holds)
  | raised e t size => exact .of_step step (.of_over rfl size rfl)

theorem decodeTokens_full {policy : OvershootPolicy} {input : List Byte} {fuel : Nat}
    (full : size ≤ sc.out.length) : decodeTokens policy size input fuel sc = .ok sc.out := by
  cases fuel with
  | zero => rfl
  | succ fuel => exact if_pos full

theorem decodeTokens_owed {policy : OvershootPolicy} {input : List Byte} {fuel : Nat}
    (owed : sc.out.length < size) : decodeTokens policy size input (fuel + 1) sc =
      sc.token policy size input >>= decodeTokens policy size input fuel := by
  rw [decodeTokens, if_neg (Nat.not_le.mpr owed)]
  cases sc.token policy size input <;> rfl

/-- What the big-step function still does from a `Scan`, for `fuel` more tokens. -/
def Call.rest (call : Call) (fuel : Nat) (sc : Scan) : Except ErrorKind (List Byte) :=
  decodeTokens call.config.overshootPolicy call.size call.input fuel sc

theorem State.callResult_done {bs : List Byte} (phase : s.fsm = .done)
    (read : readOutBytes s.outMem 0 s.resultLen.toNat = .ok bs) : s.callResult = some (.ok bs) := by
  simp only [State.callResult, phase, read]

/-- R128, R129: a call that owes nothing has produced its result. -/
theorem State.Tracks.terminalTest_endsWithin {fuel : Nat} (h : s.Tracks call sc)
    (more : sc.out.length < call.size →
      (s.goto .awaitMaskBit).EndsWithin call.size n (call.rest fuel sc)) :
    s.terminalTest.EndsWithin call.size n (call.rest fuel sc) := by
  by_cases owed : sc.out.length < call.size
  · rw [State.terminalTest_more (by rwa [h.produced, h.size])]
    exact more owed
  have full := Nat.not_lt.mp owed
  rw [State.terminalTest_done (by rwa [h.produced, h.size]), Call.rest, decodeTokens_full full]
  have read : readOutBytes s.outMem 0 s.decodedSize.toNat = .ok sc.out := by
    refine readOutBytes_eq_ok.mpr ⟨?_, fun i hi => ?_⟩
    · rw [h.size]
      exact h.owed.antisymm full
    · rw [Nat.zero_add]
      exact h.output i (by rw [h.size] at hi; omega)
  exact .of_over rfl h.size (State.callResult_done rfl read)

/-- R131, R133: from AWAIT_MASK_BIT the loop computes the rest of the big-step function, three steps
a token. -/
theorem State.Tracks.loop_endsWithin {fuel : Nat} (h : s.Tracks call sc)
    (phase : s.fsm = .awaitMaskBit) (owed : sc.out.length < call.size)
    (enough : call.size ≤ sc.out.length + fuel) :
    s.EndsWithin call.size (3 * fuel) (call.rest fuel sc) := by
  induction fuel generalizing s sc with
  | zero => omega
  | succ fuel ih =>
    have ends {u : State} {r : Res Unit} {x : Except ErrorKind Scan}
        (agrees : Agrees call (Grown call sc.out.length) r x) (step : engineStep u = r.endToken) :
        u.EndsWithin call.size (3 * fuel + 1) (x >>= call.rest fuel) :=
      agrees.endsWithin step fun _ t sc' ⟨tracks, grown⟩ =>
        tracks.terminalTest_endsWithin fun owed' => ih { tracks with } rfl owed' (by omega)
    rw [Call.rest, decodeTokens_owed owed, Scan.token_eq, bind_assoc]
    refine h.nextBit.endsWithin (n := 3 * fuel + 2) (engineStep_awaitMaskBit phase) ?_
    rintro c t _ ⟨sc', tracks, same⟩
    rw [← same] at owed ends
    cases c with
    | true =>
      exact .of_step (engineStep_dispatch_literal rfl rfl)
        (ends ((tracks.dispatched true .literal).copyLiteral owed) (engineStep_literal_eq rfl))
    | false =>
      exact .of_step (engineStep_dispatch_backref rfl rfl)
        (ends ((tracks.dispatched false .backref).resolve owed) (engineStep_backref_eq rfl))

/-! ## From the header -/

/-- Every exit of `HDR` is a next state (R80). -/
theorem exec_hdr_next {w link chunk : Word} : ∃ t, exec (.hdr w link chunk) s = .next t := by
  obtain short | len := Nat.lt_or_ge s.inputLen.toNat 16
  · exact ⟨_, exec_hdr_tooShort short⟩
  obtain fits | large := le_or_gt w.toNat s.config.outCapacity.toNat
  · exact ⟨_, exec_hdr_fits len fits⟩
  · exact ⟨_, exec_hdr_tooLarge len large⟩

theorem engineStep_header_of_input {input : List Byte} (phase : s.fsm = .header)
    (holds : s.holdsInput input) (len : 16 ≤ input.length) : engineStep s =
      exec (.hdr (wordAt input 4) (wordAt input 8) (wordAt input 12)) s := by
  obtain ⟨hlen, hin⟩ := holds
  have reads {a : Nat} := Memory.holds.readIn32_eq (a := a) hin
  obtain ⟨-, parses⟩ := headerStepParsesTheHeader s phase
  exact (parses (by omega) _ _ _ (reads (by omega)) (reads (by omega)) (reads (by omega))).1

/-- The registers `HDR` leaves are where the big-step function starts (R32, R80). -/
theorem initCall_tracks {input : List Byte} (holds : s.holdsInput input) {w link chunk : Word}
    (fits : w.toNat ≤ s.config.outCapacity.toNat) :
    (s.setHeader w link chunk).initCall.Tracks ⟨s.config, input, w.toNat⟩
      ⟨headerSize, [], link.toNat, chunk.toNat, []⟩ where
  config := rfl
  input := holds
  size := rfl
  fits := fits
  maskCursor := rfl
  maskBits := rfl
  link := rfl
  chunk := rfl
  produced := rfl
  owed := Nat.zero_le _
  output := nofun

/-- R131, R133: a call computes `decodeCall`, in one step for the header and three for each byte it
may produce. -/
theorem call_endsWithin {input : List Byte} (phase : s.fsm = .header)
    (holds : s.holdsInput input) :
    ∃ size, s.EndsWithin size (3 * size + 1) (decodeCall s.config input) := by
  have same : input.length = s.inputLen.toNat := holds.1
  obtain short | len := Nat.lt_or_ge input.length headerSize
  · have step := (headerStepParsesTheHeader s phase).1 (same.symm.trans_lt short)
    rw [decodeCall, if_pos short]
    exact ⟨s.decodedSize.toNat, .of_step step (.of_over rfl rfl rfl)⟩
  have step := engineStep_header_of_input phase holds len
  refine ⟨(wordAt input 4).toNat, ?_⟩
  rw [decodeCall, if_neg (Nat.not_lt.mpr len)]
  obtain fits | large := le_or_gt (wordAt input 4).toNat s.config.outCapacity.toNat
  · have tracks := initCall_tracks (link := wordAt input 8) (chunk := wordAt input 12) holds fits
    simp only [if_neg (Nat.not_lt.mpr fits)]
    exact .of_step (step.trans (exec_hdr_fits (same ▸ len) fits))
      (tracks.terminalTest_endsWithin fun owed =>
        State.Tracks.loop_endsWithin { tracks with } rfl owed (Nat.le_add_left ..))
  · simp only [if_pos large]
    exact .of_step (step.trans (exec_hdr_tooLarge (same ▸ len) large)) (.of_over rfl rfl rfl)

end

/-! ## Good states -/

/-- The registers of a good state of the loop are those of some `Scan`. -/
theorem State.LoopInv.tracks {input : List Byte} (h : s.LoopInv) (holds : s.holdsInput input) :
    ∃ call sc, s.Tracks call sc ∧ sc.out.length < call.size := by
  obtain ⟨out, read, length⟩ := readOutBytes_of_written h.written
  obtain ⟨-, bytes⟩ := readOutBytes_eq_ok.mp read
  refine ⟨⟨s.config, input, s.decodedSize.toNat⟩, ⟨s.maskCursor.toNat, s.unreadBits,
    s.linkCursor.toNat, s.byteChunkCursor.toNat, out⟩, ⟨rfl, holds, rfl, h.fits, rfl, rfl, rfl, rfl,
    length.symm, length.trans_le h.owed.le, fun a ha => ?_⟩, length.trans_lt h.owed⟩
  simpa using bytes a (length ▸ ha)

/-! ## The obligations -/

/-- Settles O54: in the loop every part of a step agrees with one of the big-step function, which
has no fault; `HDR` has none either. -/
theorem busyEngineAlwaysSteps : Obligations.BusyEngineAlwaysSteps := by
  intro s inv loaded busy
  obtain ⟨input, holds⟩ := exists_holdsInput loaded
  rw [busy_eq, decide_eq_true_eq] at busy
  obtain phase | inLoop := busy
  · obtain short | len := Nat.lt_or_ge input.length 16
    · exact ⟨_, (headerStepParsesTheHeader s phase).1 (holds.1.symm.trans_lt short)⟩
    · rw [engineStep_header_of_input phase holds len]
      exact exec_hdr_next
  · obtain ⟨call, sc, tracks, owed⟩ := ((phaseInv_of_inLoop inLoop).mp inv.phase).tracks holds
    cases phase : s.fsm with
    | awaitMaskBit =>
      rw [engineStep_awaitMaskBit phase]
      exact tracks.nextBit.next
    | dispatch => exact ⟨_, engineStep_dispatch phase⟩
    | literal =>
      rw [engineStep_literal_eq phase]
      exact (tracks.copyLiteral owed).next
    | backref =>
      rw [engineStep_backref_eq phase]
      exact (tracks.resolve owed).next
    | idle | header | done | error =>
      rw [phase] at inLoop
      cases inLoop

/-- Settles O55: the engine's run ends as the big-step function does, three steps a token. -/
theorem everyCallEnds : Obligations.EveryCallEnds := by
  intro s phase loaded
  obtain ⟨input, holds⟩ := exists_holdsInput loaded
  obtain ⟨size, k, t, run, ended, le, rfl, -⟩ := call_endsWithin phase holds
  exact ⟨k, t, run, ended, by omega⟩

/-- Settles O56: the engine's run and the big-step function go through the same tokens. -/
theorem callComputesDecode : Obligations.CallComputesDecode := by
  intro s input phase holds
  obtain ⟨size, k, t, run, ended, -, -, result⟩ := call_endsWithin phase holds
  exact ⟨k, t, run, ended, result⟩

end Sys2Proof.Machine
end

section
/-! SUPPORT. The proof of the state machine family that two calls on the same input run in lockstep:
every part of a step reads only the registers of the call, IN below INPUT_LEN and OUT below the
output cursor (R132, R171). -/

namespace Sys2Proof.Machine

variable {s s' t : State}

/-! ## Memories that agree below an address -/

/-- Two memories with the same bytes below an address, or the same addresses unwritten. -/
def Memory.agreesBelow (m m' : Memory) (n : Nat) : Prop := ∀ a < n, m.read a = m'.read a

section
variable {m m' : Memory} {a n : Nat}

theorem Memory.agreesBelow.readIn_eq (h : m.agreesBelow m' n) (bound : a + 1 ≤ n) :
    readIn m' a = readIn m a := by
  unfold readIn
  rw [h a bound]

theorem Memory.agreesBelow.readIn16_eq (h : m.agreesBelow m' n) (bound : a + 2 ≤ n) :
    readIn16 m' a = readIn16 m a := by
  unfold readIn16
  rw [h.readIn_eq (by omega), h.readIn_eq (by omega)]

theorem Memory.agreesBelow.readIn32_eq (h : m.agreesBelow m' n) (bound : a + 4 ≤ n) :
    readIn32 m' a = readIn32 m a := by
  unfold readIn32
  rw [h.readIn16_eq (by omega), h.readIn16_eq (by omega)]

theorem Memory.agreesBelow.readOut_eq (h : m.agreesBelow m' n) (bound : a < n) :
    readOut m' a = readOut m a := by
  unfold readOut
  rw [h a bound]

theorem Memory.agreesBelow.readOutBytes_eq {k : Nat} (h : m.agreesBelow m' n)
    (bound : a + k ≤ n) : readOutBytes m' a k = readOutBytes m a k := by
  induction k generalizing a with
  | zero => rfl
  | succ k ih =>
    unfold readOutBytes
    rw [h.readOut_eq (by omega), ih (by omega)]

theorem Memory.agreesBelow.write (h : m.agreesBelow m' n) (b : Byte) :
    (m.write n b).agreesBelow (m'.write n b) (n + 1) := by
  intro a ha
  rw [Memory.read_write, Memory.read_write]
  split
  · rfl
  · exact h a (by omega)

/-- R107: a copy reads only bytes below its destination, so what lies above does not matter. -/
theorem Memory.agreesBelow.copyRun_agrees {cap : Word} {src dst : Nat} {out : Memory}
    (h : m.agreesBelow m' dst) (near : src < dst) (copied : copyRun cap src dst n m = .ok out) :
    ∃ out', copyRun cap src dst n m' = .ok out' ∧ out.agreesBelow out' (dst + n) := by
  induction n generalizing src dst m m' with
  | zero =>
    cases copied
    exact ⟨m', rfl, h⟩
  | succ n ih =>
    unfold copyRun at copied ⊢
    rw [h.readOut_eq near]
    cases read : readOut m src with
    | error f =>
      rw [read] at copied
      cases copied
    | ok b =>
      simp only [read, writeOut] at copied ⊢
      by_cases room : dst < cap.toNat
      · simp only [room, if_true] at copied ⊢
        rw [← Nat.add_assoc, Nat.add_right_comm]
        exact ih (h.write b) (Nat.succ_lt_succ near) copied
      · simp only [room, if_false] at copied
        cases copied

end

/-! ## Two machines in the same call -/

/-- The same registers beside other memories and another host. -/
def State.beside (s : State) (inMem outMem : Memory) (host : HostPort) : State :=
  { s with inMem := inMem, outMem := outMem, host := host }

section
variable (i o : Memory) (h : HostPort)

@[simp] theorem State.beside_config : (s.beside i o h).config = s.config := rfl
@[simp] theorem State.beside_inMem : (s.beside i o h).inMem = i := rfl
@[simp] theorem State.beside_inputLen : (s.beside i o h).inputLen = s.inputLen := rfl
@[simp] theorem State.beside_outMem : (s.beside i o h).outMem = o := rfl
@[simp] theorem State.beside_maskCursor : (s.beside i o h).maskCursor = s.maskCursor := rfl
@[simp] theorem State.beside_maskWord : (s.beside i o h).maskWord = s.maskWord := rfl
@[simp] theorem State.beside_maskBitsLeft : (s.beside i o h).maskBitsLeft = s.maskBitsLeft := rfl
@[simp] theorem State.beside_linkCursor : (s.beside i o h).linkCursor = s.linkCursor := rfl
@[simp] theorem State.beside_byteChunkCursor :
    (s.beside i o h).byteChunkCursor = s.byteChunkCursor := rfl
@[simp] theorem State.beside_outputCursor : (s.beside i o h).outputCursor = s.outputCursor := rfl
@[simp] theorem State.beside_sourceStart (d : BitVec 12) :
    (s.beside i o h).sourceStart d = s.sourceStart d := rfl
@[simp] theorem State.beside_copyCount (n : Nat) :
    (s.beside i o h).copyCount n = s.copyCount n := rfl

theorem State.terminalTest_beside :
    (s.beside i o h).terminalTest = s.terminalTest.beside i o h := by
  by_cases owed : s.outputCursor.toNat < s.decodedSize.toNat
  · rw [State.terminalTest_more owed]
    exact State.terminalTest_more (s := s.beside i o h) owed
  · rw [State.terminalTest_done (Nat.not_lt.mp owed)]
    exact State.terminalTest_done (s := s.beside i o h) (Nat.not_lt.mp owed)

end

/-- Two machines after the header of the same call: the same registers, and memories that agree
where the call has loaded or produced bytes. -/
inductive Twin (s : State) : State → Prop where
  | mk (i o : Memory) (h : HostPort) (input : s.inMem.agreesBelow i s.inputLen.toNat)
      (output : s.outMem.agreesBelow o s.outputCursor.toNat) : Twin s (s.beside i o h)

/-- A part of a step goes on alike in two machines, or raises the same error in both; nothing is
said where the first one faults. -/
inductive Lockstep {α : Type} : Res α → Res α → Prop where
  | ok (a : α) (t t' : State) (twin : Twin t t') : Lockstep (.ok a t) (.ok a t')
  | raised (e : ErrorKind) (t t' : State) : Lockstep (.raised e t) (.raised e t')
  | fault (f : Fault) (r : Res α) : Lockstep (.fault f) r

theorem Lockstep.bind {α β : Type} {r r' : Res α} {k : α → State → Res β} (h : Lockstep r r')
    (next : ∀ a t t', Twin t t' → Lockstep (k a t) (k a t')) :
    Lockstep (r.bind k) (r'.bind k) := by
  cases h with
  | ok a t t' twin => exact next a t t' twin
  | raised e t t' => exact .raised e t t'
  | fault f r => exact .fault f _

/-! ## The parts of a step -/

theorem Twin.nextBit (h : Twin s s') : Lockstep s.nextBit s'.nextBit := by
  obtain ⟨i, o, p, input, output⟩ := h
  rw [State.nextBit_eq, State.nextBit_eq]
  simp only [State.beside_maskBitsLeft, State.beside_maskCursor, State.beside_inputLen,
    State.beside_inMem, State.beside_maskWord]
  by_cases empty : s.maskBitsLeft = 0
  · by_cases bound : s.maskCursor.toNat + 4 ≤ s.inputLen.toNat
    · simp only [empty, bound, if_true, input.readIn32_eq bound]
      cases readIn32 s.inMem s.maskCursor.toNat with
      | error f => exact .fault f _
      | ok w => exact .ok _ _ _ (.mk i o p input output)
    · simp only [empty, bound, if_true, if_false]
      exact .raised ..
  · simp only [empty, if_false]
    exact .ok _ _ _ (.mk i o p input output)

theorem Twin.nextByte (h : Twin s s') : Lockstep s.nextByte s'.nextByte := by
  obtain ⟨i, o, p, input, output⟩ := h
  rw [State.nextByte_eq, State.nextByte_eq]
  simp only [State.beside_byteChunkCursor, State.beside_inputLen, State.beside_inMem]
  by_cases bound : s.byteChunkCursor.toNat + 1 ≤ s.inputLen.toNat
  · simp only [bound, if_true, input.readIn_eq bound]
    cases readIn s.inMem s.byteChunkCursor.toNat with
    | error f => exact .fault f _
    | ok b => exact .ok _ _ _ (.mk i o p input output)
  · simp only [bound, if_false]
    exact .raised ..

theorem Twin.nextCode (h : Twin s s') : Lockstep s.nextCode s'.nextCode := by
  obtain ⟨i, o, p, input, output⟩ := h
  rw [State.nextCode_eq, State.nextCode_eq]
  simp only [State.beside_linkCursor, State.beside_inputLen, State.beside_inMem]
  by_cases bound : s.linkCursor.toNat + 2 ≤ s.inputLen.toNat
  · simp only [bound, if_true, input.readIn16_eq bound]
    cases readIn16 s.inMem s.linkCursor.toNat with
    | error f => exact .fault f _
    | ok code => exact .ok _ _ _ (.mk i o p input output)
  · simp only [bound, if_false]
    exact .raised ..

theorem Twin.appendByte (h : Twin s s') (b : Byte) :
    Lockstep (s.appendByte b) (s'.appendByte b) := by
  obtain ⟨i, o, p, input, output⟩ := h
  rw [State.appendByte_eq, State.appendByte_eq]
  simp only [State.beside_outputCursor, State.beside_config, State.beside_outMem]
  by_cases room : s.outputCursor.toNat < s.config.outCapacity.toNat
  · simp only [room, if_true]
    refine .ok _ _ _ (.mk i _ p input ?_)
    rw [State.appended_outputCursor, cursor_add_toNat room]
    exact output.write b
  · simp only [room, if_false]
    exact .fault ..

theorem Twin.replay (h : Twin s s') (d : BitVec 12) (n : Nat) :
    Lockstep (s.replay d n) (s'.replay d n) := by
  obtain ⟨i, o, p, input, output⟩ := h
  rw [State.replay, State.replay]
  simp only [State.beside_sourceStart, State.beside_copyCount, State.beside_config,
    State.beside_outputCursor, State.beside_outMem]
  by_cases far : s.sourceStart d < 0
  · simp only [far, if_true]
    exact .raised ..
  simp only [far, if_false]
  cases s.copyCount n with
  | none => exact .raised ..
  | some k =>
    have near : (s.sourceStart d).toNat < s.outputCursor.toNat := by
      rw [State.sourceStart_neg] at far
      rw [State.sourceStart_toNat]
      omega
    dsimp only
    cases copied : copyRun s.config.outCapacity (s.sourceStart d).toNat s.outputCursor.toNat k
        s.outMem with
    | error f => exact .fault f _
    | ok out =>
      obtain ⟨out', copied', agrees⟩ := output.copyRun_agrees near copied
      simp only [copied']
      refine .ok _ _ _ (.mk i out' p input ?_)
      rw [State.appended_toNat (copyRun_spec near copied)]
      exact agrees

theorem Twin.copyLiteral (h : Twin s s') : Lockstep s.copyLiteral s'.copyLiteral :=
  h.nextByte.bind fun b _ _ twin => twin.appendByte b

theorem Twin.resolve (h : Twin s s') : Lockstep s.resolve s'.resolve := by
  refine h.nextCode.bind fun code t t' twin => ?_
  by_cases extended : linkLengthField code = 0
  · simp only [if_pos extended]
    exact twin.nextByte.bind fun e _ _ twin' => twin'.replay _ _
  · simp only [if_neg extended]
    exact twin.replay _ _

/-! ## The steps -/

/-- Two machines in HEADER on the same input: the registers `HDR` overwrites are free. -/
structure SameStart (s s' : State) : Prop where
  phase : s.fsm = .header
  phase' : s'.fsm = .header
  config : s.config = s'.config
  inputLen : s.inputLen = s'.inputLen
  errCode : s.errCode = s'.errCode
  resultLen : s.resultLen = s'.resultLen
  input : s.inMem.agreesBelow s'.inMem s.inputLen.toNat

/-- Two machines at the same place of the same call, or at the same end of it. -/
inductive SameCall (s s' : State) : Prop where
  | starting (start : SameStart s s')
  | running (twin : Twin s s') (inLoop : s.fsm.inLoop = true)
  | succeeded (twin : Twin s s') (phase : s.fsm = .done)
      (produced : s.resultLen.toNat ≤ s.outputCursor.toNat)
  | failed (phase : s.fsm = .error) (phase' : s'.fsm = .error) (errCode : s.errCode = s'.errCode)
      (resultLen : s.resultLen = s'.resultLen)

theorem Twin.terminalTest (h : Twin s s') : SameCall s.terminalTest s'.terminalTest := by
  obtain ⟨i, o, p, input, output⟩ := h
  rw [State.terminalTest_beside]
  by_cases owed : s.outputCursor.toNat < s.decodedSize.toNat
  · rw [State.terminalTest_more owed]
    exact .running (.mk i o p input output) rfl
  · rw [State.terminalTest_done (Nat.not_lt.mp owed)]
    exact .succeeded (.mk i o p input output) rfl (Nat.not_lt.mp owed)

/-- A step made of parts in lockstep leads both machines to the same place. -/
theorem Lockstep.finish {α : Type} {r r' : Res α} {f : α → State → State} (h : Lockstep r r')
    (same : ∀ a t t', Twin t t' → SameCall (f a t) (f a t'))
    (step : (r.bind fun a t => .ok () (f a t)).finish = .next t) :
    ∃ t', (r'.bind fun a t => .ok () (f a t)).finish = .next t' ∧ SameCall t t' := by
  cases h with
  | ok a u u' twin =>
    cases step
    exact ⟨_, rfl, same a u u' twin⟩
  | raised e u u' =>
    cases step
    exact ⟨_, rfl, .failed rfl rfl rfl rfl⟩
  | fault f r => cases step

theorem Twin.step (h : Twin s s') (inLoop : s.fsm.inLoop = true) (step : engineStep s = .next t) :
    ∃ t', engineStep s' = .next t' ∧ SameCall t t' := by
  have sameFsm : s'.fsm = s.fsm := by cases h; rfl
  cases phase : s.fsm with
  | awaitMaskBit =>
    rw [engineStep_awaitMaskBit phase] at step
    rw [engineStep_awaitMaskBit (sameFsm.trans phase)]
    refine h.nextBit.finish (fun c u u' twin => ?_) step
    obtain ⟨i, o, p, input, output⟩ := twin
    exact .running (.mk i o p input output) rfl
  | dispatch =>
    obtain ⟨i, o, p, input, output⟩ := h
    cases bit : s.ctrlBit with
    | true =>
      rw [engineStep_dispatch_literal phase bit] at step
      cases step
      exact ⟨_, engineStep_dispatch_literal phase bit, .running (.mk i o p input output) rfl⟩
    | false =>
      rw [engineStep_dispatch_backref phase bit] at step
      cases step
      exact ⟨_, engineStep_dispatch_backref phase bit, .running (.mk i o p input output) rfl⟩
  | literal =>
    rw [engineStep_literal_eq phase] at step
    rw [engineStep_literal_eq (sameFsm.trans phase)]
    exact h.copyLiteral.finish (fun _ _ _ twin => twin.terminalTest) step
  | backref =>
    rw [engineStep_backref_eq phase] at step
    rw [engineStep_backref_eq (sameFsm.trans phase)]
    exact h.resolve.finish (fun _ _ _ twin => twin.terminalTest) step
  | idle | header | done | error =>
    rw [phase] at inLoop
    cases inLoop

/-- `HDR` overwrites every register of the loop, so what they held before does not matter. -/
theorem SameStart.initCall (h : SameStart s s') (size link chunk : Word) :
    Twin (s.setHeader size link chunk).initCall (s'.setHeader size link chunk).initCall := by
  have overwritten : (s'.setHeader size link chunk).initCall =
      (s.setHeader size link chunk).initCall.beside s'.inMem s'.outMem s'.host := by
    simp only [State.initCall, State.setHeader, State.beside, h.config, h.inputLen, h.phase,
      h.phase', h.errCode, h.resultLen]
  rw [overwritten]
  exact .mk _ _ _ h.input nofun

theorem SameStart.step (h : SameStart s s') (step : engineStep s = .next t) :
    ∃ t', engineStep s' = .next t' ∧ SameCall t t' := by
  have phase := h.phase
  have inputLen := h.inputLen
  obtain ⟨short', long'⟩ := headerStepParsesTheHeader s' h.phase'
  rw [← inputLen] at short' long'
  cases engineStep_next step with
  | waits idle => simp [State.busy, phase] at idle
  | headerShort _ short => exact ⟨_, short' short, .failed rfl rfl rfl rfl⟩
  | headerTooLarge _ len size link chunk readSize readLink readChunk large =>
    obtain ⟨-, tooLarge, -⟩ := long' len size link chunk
      ((h.input.readIn32_eq (by omega)).trans readSize)
      ((h.input.readIn32_eq (by omega)).trans readLink)
      ((h.input.readIn32_eq (by omega)).trans readChunk)
    exact ⟨_, tooLarge (h.config ▸ large), .failed rfl rfl rfl rfl⟩
  | headerRead _ len size link chunk readSize readLink readChunk fits =>
    obtain ⟨step', -, -⟩ := long' len size link chunk
      ((h.input.readIn32_eq (by omega)).trans readSize)
      ((h.input.readIn32_eq (by omega)).trans readLink)
      ((h.input.readIn32_eq (by omega)).trans readChunk)
    have fits' := exec_hdr_fits (link := link) (chunk := chunk) (inputLen ▸ len) (h.config ▸ fits)
    exact ⟨_, step'.trans fits', (h.initCall size link chunk).terminalTest⟩
  | _ other => simp [other] at phase

theorem SameCall.step (h : SameCall s s') (step : engineStep s = .next t) :
    ∃ t', engineStep s' = .next t' ∧ SameCall t t' := by
  cases h with
  | starting start => exact start.step step
  | running twin inLoop => exact twin.step inLoop step
  | succeeded twin phase produced =>
    obtain ⟨i, o, p, input, output⟩ := twin
    have idle : s.busy = false := by rw [busy_eq, phase]; rfl
    rw [engineStep_of_not_busy idle] at step
    cases step
    exact ⟨_, engineStep_of_not_busy idle, .succeeded (.mk i o p input output) phase produced⟩
  | failed phase phase' errCode resultLen =>
    have idle : s.busy = false := by rw [busy_eq, phase]; rfl
    have idle' : s'.busy = false := by rw [busy_eq, phase']; rfl
    rw [engineStep_of_not_busy idle] at step
    cases step
    exact ⟨s', engineStep_of_not_busy idle', .failed phase phase' errCode resultLen⟩

theorem SameCall.run (h : SameCall s s') {k : Nat} (run : engineRun k s = .next t) :
    ∃ t', engineRun k s' = .next t' ∧ SameCall t t' := by
  induction k generalizing s s' with
  | zero =>
    cases run
    exact ⟨s', rfl, h⟩
  | succ k ih =>
    unfold engineRun at run ⊢
    cases step : engineStep s with
    | next u =>
      obtain ⟨u', step', same⟩ := h.step step
      rw [step] at run
      rw [step']
      exact ih same run
    | fault | refused =>
      rw [step] at run
      cases run

/-! ## The outcome -/

/-- The result of a call is read from `fsm`, `errCode` and, in DONE, the bytes of OUT (R25). -/
theorem callResult_congr (phase : s.fsm = s'.fsm) (errCode : s.errCode = s'.errCode)
    (bytes : s.fsm = .done → readOutBytes s'.outMem 0 s'.resultLen.toNat =
      readOutBytes s.outMem 0 s.resultLen.toNat) : s.callResult = s'.callResult := by
  unfold State.callResult
  rw [← phase, ← errCode]
  cases ended : s.fsm with
  | done => rw [bytes ended]
  | _ => rfl

theorem SameCall.outcome (h : SameCall s s') : s.fsm = s'.fsm ∧ s.errCode = s'.errCode ∧
    s.resultLen = s'.resultLen ∧ s.callResult = s'.callResult := by
  cases h with
  | starting start =>
    have same := start.phase.trans start.phase'.symm
    exact ⟨same, start.errCode, start.resultLen,
      callResult_congr same start.errCode (by simp [start.phase])⟩
  | running twin inLoop =>
    obtain ⟨i, o, p, -, -⟩ := twin
    refine ⟨rfl, rfl, rfl, callResult_congr rfl rfl fun phase => ?_⟩
    rw [phase] at inLoop
    cases inLoop
  | succeeded twin phase produced =>
    obtain ⟨i, o, p, -, output⟩ := twin
    exact ⟨rfl, rfl, rfl, callResult_congr rfl rfl fun _ =>
      output.readOutBytes_eq (by rwa [Nat.zero_add])⟩
  | failed phase phase' errCode resultLen =>
    have same := phase.trans phase'.symm
    exact ⟨same, errCode, resultLen, callResult_congr same errCode (by simp [phase])⟩

/-! ## The obligation -/

/-- Settles O57: START puts both machines at the start of the same call, and every step keeps them
at the same place of it. -/
theorem callDependsOnItsInputAlone : Obligations.CallDependsOnItsInputAlone := by
  intro s s' u u' idle idle' start start' config inputLen input k t run
  rw [hostStep_start idle] at start
  rw [hostStep_start idle'] at start'
  cases start
  cases start'
  have same : SameCall s.acceptStart s'.acceptStart :=
    .starting ⟨rfl, rfl, config, inputLen, rfl, rfl, input⟩
  obtain ⟨t', run', ended⟩ := same.run run
  exact ⟨t', run', ended.outcome⟩

end Sys2Proof.Machine
end

section
/-! SUPPORT. The proof of the reset family: the reset move from any state (R170). -/

namespace Sys2Proof.Machine

variable (s : State)

/-! ## The state after reset is idle: no flag is set and no call has a result (R20) -/

@[simp] theorem State.hardwareReset_busy : s.hardwareReset.busy = false := rfl
@[simp] theorem State.hardwareReset_done : s.hardwareReset.done = false := rfl
@[simp] theorem State.hardwareReset_error : s.hardwareReset.error = false := rfl
@[simp] theorem State.hardwareReset_callResult : s.hardwareReset.callResult = none := rfl

theorem hostStep_reset : hostStep .reset s = .next s.hardwareReset := rfl

/-! ## The obligation -/

/-- Settles O40: reset has no condition on the state and leaves the registers of `State.reset`;
in IDLE the engine has no step. -/
theorem resetFromAnyState : Obligations.ResetFromAnyState := by
  intro s
  obtain ⟨fsm, errCode, resultLen, inputLen, -, -, -⟩ := resetValues
  have idle : engineStep s.hardwareReset = .next s.hardwareReset :=
    engineStep_of_not_busy s.hardwareReset_busy
  exact ⟨s.hardwareReset, hostStep_reset s, s.hardwareReset_fsm.trans fsm,
    s.hardwareReset_errCode.trans errCode, s.hardwareReset_resultLen.trans resultLen,
    s.hardwareReset_inputLen.trans inputLen, s.hardwareReset_busy, s.hardwareReset_done,
    s.hardwareReset_error, s.hardwareReset_callResult, idle⟩

end Sys2Proof.Machine
end

section
/-! SUPPORT. The proofs of the remaining statements: the next control bit, the transitions of the
engine, which instruction a step runs, the host's windows, and what reset and every step say of the
invariant and the configuration (R4, R18, R57, R91, R120, R121, R123). -/

namespace Sys2Proof.Machine

variable {s t u : State}

/-! ## The control bits -/

/-- Shifts add up: `n` bits taken are one shift by `n` (R12). -/
theorem shiftMask_iterate_maskWord (n : Nat) (s : State) :
    (State.shiftMask^[n] s).maskWord = s.maskWord <<< n := by
  induction n with
  | zero => simp
  | succ n ih =>
    rw [Function.iterate_succ_apply', State.shiftMask_maskWord, ih, BitVec.shiftLeft_add]

/-- A refill with the bit taken from it, as one record update (R91). -/
theorem State.loadMask_shiftMask (s : State) (w : Word) : (s.loadMask w).shiftMask =
    { s with maskCursor := s.maskCursor + 4, maskWord := w <<< 1, maskBitsLeft := 31 } := by
  have left : BitVec.ofNat 6 maskWordBits - 1 = 31 := by decide
  rw [State.loadMask, State.shiftMask, left]
  rfl

/-! ## The transitions of the engine -/

/-- The terminal test goes on with the loop or ends the call (R128). -/
theorem State.terminalTest_fsm (s : State) :
    s.terminalTest.fsm = .awaitMaskBit ∨ s.terminalTest.fsm = .done := by
  unfold State.terminalTest
  split
  · exact .inr rfl
  · exact .inl rfl

/-- The exits of a step with a terminal test, where `p` stands for its error exits (R121). -/
theorem State.terminalTest_fsm_or (s : State) (p : Prop) :
    s.terminalTest.fsm = .awaitMaskBit ∨ s.terminalTest.fsm = .done ∨ p :=
  or_assoc.mp (.inl s.terminalTest_fsm)

/-- The reads of a back-reference leave the configuration alone. -/
theorem BackrefRead.config {d : BitVec 12} {n : Nat} {i : Instr} (h : BackrefRead s u d n i) :
    u.config = s.config := by
  obtain ⟨link, chunk, -, -, rfl⟩ := h.streams
  rfl

/-! ## What a step runs -/

theorem step_of_no_moves (waiting : s.host.moves = []) : step s = engineStep s := by
  rw [step, waiting]

theorem step_of_move {m : HostMove} {ms : List HostMove} (moves : s.host.moves = m :: ms) :
    step s = hostStep m (s.setMoves ms) := by
  rw [step, moves]

/-- A piece within the input is its bytes (R45). -/
theorem State.piece_of_read {cursor : Word} {n : Nat} {bytes : List Byte}
    (bound : cursor.toNat + n ≤ s.inputLen.toNat)
    (read : readInBytes s.inMem cursor.toNat n = .ok bytes) : s.piece cursor n = .ok bytes s := by
  rw [State.piece, if_pos (State.inBounds_iff.mpr bound), read]

section
variable {i : Instr} {bytes code : List Byte}

/-- The header record the decoder reads is the one fetched (R80). -/
theorem State.fetchHeader_of_decode (len : 16 ≤ s.inputLen.toNat)
    (read : readInBytes s.inMem 4 12 = .ok bytes) (decoded : decodeHeaderFields bytes = .ok i) :
    s.fetchHeader = .ok i s := by
  rw [State.fetchHeader_eq, if_neg (Nat.not_lt.mpr len), read]
  simp only [decoded, State.decoded]

/-- The literal the decoder reads at the byte-chunk cursor is the one fetched (R126). -/
theorem State.fetchLiteral_of_decode (bound : s.byteChunkCursor.toNat + 1 ≤ s.inputLen.toNat)
    (read : readInBytes s.inMem s.byteChunkCursor.toNat 1 = .ok bytes)
    (decoded : decode (.token true [] bytes) = .ok i) : s.fetchLiteral = .ok i s := by
  rw [State.fetchLiteral, State.piece_of_read bound read, Res.bind_ok, decoded, State.decoded]

/-- A link code that needs no extension byte is decoded alone (R100, R101). -/
theorem State.fetchBackref_of_short (bound : s.linkCursor.toNat + 2 ≤ s.inputLen.toNat)
    (read : readInBytes s.inMem s.linkCursor.toNat 2 = .ok code)
    (short : needsExtension code = false) (decoded : decode (.token false code []) = .ok i) :
    s.fetchBackref = .ok i s := by
  have link : s.piece s.linkCursor linkCodeBytes = .ok code s := State.piece_of_read bound read
  rw [State.fetchBackref, link, Res.bind_ok, if_neg (Bool.eq_false_iff.mp short), decoded,
    State.decoded]

/-- A link code that needs one is decoded with the byte at the byte-chunk cursor (R100, R102). -/
theorem State.fetchBackref_of_extended (bound : s.linkCursor.toNat + 2 ≤ s.inputLen.toNat)
    (read : readInBytes s.inMem s.linkCursor.toNat 2 = .ok code)
    (extended : needsExtension code = true)
    (bound' : s.byteChunkCursor.toNat + 1 ≤ s.inputLen.toNat)
    (read' : readInBytes s.inMem s.byteChunkCursor.toNat 1 = .ok bytes)
    (decoded : decode (.token false code bytes) = .ok i) : s.fetchBackref = .ok i s := by
  have link : s.piece s.linkCursor linkCodeBytes = .ok code s := State.piece_of_read bound read
  have chunk : s.advanceLink.piece s.byteChunkCursor 1 = .ok bytes s.advanceLink :=
    State.piece_of_read bound' read'
  rw [State.fetchBackref, link, Res.bind_ok, if_pos extended, chunk, Res.bind_ok, decoded,
    State.decoded]

end

/-! ## The host's windows -/

theorem whenNotBusy_busy (busy : s.busy = true) (t : State) :
    s.whenNotBusy t = .refused .hostWriteWhileBusy := if_pos busy

theorem whenNotBusy_idle (idle : s.busy = false) (t : State) : s.whenNotBusy t = .next t :=
  if_neg (Bool.eq_false_iff.mp idle)

theorem hostReadOut_notDone (running : s.done = false) (a : Word) :
    s.hostReadOut a = .refused .hostReadOutNotDone := if_neg (Bool.eq_false_iff.mp running)

theorem hostReadOut_aboveResult {a : Word} (ended : s.done = true)
    (above : s.resultLen.toNat ≤ a.toNat) :
    s.hostReadOut a = .refused .hostReadOutAboveResult := by
  rw [State.hostReadOut, if_pos ended, if_neg (Nat.not_lt.mpr above)]

theorem hostReadOut_of_read {a : Word} {b : Byte} (ended : s.done = true)
    (below : a.toNat < s.resultLen.toNat) (read : s.outMem.read a.toNat = some b) :
    s.hostReadOut a = .next (s.answer (.outByte b)) := by
  rw [State.hostReadOut, if_pos ended, if_pos below, readOut_eq_ok.mpr read]

/-! ## The configuration -/

theorem HostStepped.config_eq (h : HostStepped s t) : t.config = s.config := by
  cases h with
  | loaded | lengthWritten | started | ignored | wasReset | answered => rfl
  | engine t move => exact move.sameInput.config

/-! ## The obligations -/

/-- Settles O11: `nextBit` by cases, and 32 shifts of one are a shift by 32. -/
theorem nextBitTakesTheTopBit : Obligations.NextBitTakesTheTopBit := by
  refine ⟨fun s => ?_, fun s => ⟨fun left => ?_, fun empty past => ?_,
    fun empty bound w read => ⟨?_, cursor_add_toNat bound⟩⟩⟩
  · rw [shiftMask_iterate_maskWord]
    exact BitVec.shiftLeft_eq_zero le_rfl
  · rw [State.nextBit_eq, if_neg left, BitVec.msb_eq_getLsbD_last]
    rfl
  · rw [State.nextBit_eq, if_pos empty, if_neg (Nat.not_le.mpr past)]
  · rw [State.nextBit_eq, if_pos empty, if_pos bound, read, ← State.loadMask_shiftMask,
      ← BitVec.msb_eq_getLsbD_last w]

/-- Settles O37: by the inversion of the engine's step; a run raises the error of its distance, or
that of its length with the policy Reject. -/
theorem engineTransitions : Obligations.EngineTransitions := by
  intro s t h
  cases engineStep_next h with
  | waits idle =>
    rw [busy_eq] at idle
    cases phase : s.fsm with
    | idle | done | error => rfl
    | _ => simp [phase, Fsm.inLoop] at idle
  | headerShort phase => rw [phase]; exact .inr (.inr ⟨rfl, rfl, .inl rfl⟩)
  | headerTooLarge phase => rw [phase]; exact .inr (.inr ⟨rfl, rfl, .inr rfl⟩)
  | headerRead phase => rw [phase]; exact State.terminalTest_fsm_or _ _
  | maskMissing phase => rw [phase]; exact .inr ⟨rfl, rfl, rfl⟩
  | maskShift phase | maskRefill phase => rw [phase]; exact .inl rfl
  | dispatchLiteral phase => rw [phase]; exact .inl rfl
  | dispatchBackref phase => rw [phase]; exact .inr rfl
  | literalMissing phase => rw [phase]; exact .inr (.inr ⟨rfl, rfl, rfl⟩)
  | codeMissing phase | extensionMissing phase =>
    rw [phase]
    exact .inr (.inr ⟨rfl, rfl, .inl rfl⟩)
  | literal phase | run phase => rw [phase]; exact State.terminalTest_fsm_or _ _
  | runRaised phase u d n i e read run =>
    rw [phase]
    obtain ⟨-, ⟨rfl, -⟩ | ⟨rfl, -, -, reject⟩⟩ := State.replay_raised run
    · exact .inr (.inr ⟨rfl, rfl, .inr (.inl rfl)⟩)
    · exact .inr (.inr ⟨rfl, rfl, .inr (.inr ⟨rfl, read.config ▸ reject⟩)⟩)

/-- Settles O51: by the inversion of the step; the engine and every move of the host keep it. -/
theorem configurationNeverChanges : Obligations.ConfigurationNeverChanges := by
  intro s t h
  obtain ⟨-, move⟩ | ⟨m, ms, -, move⟩ := step_next h
  · exact move.sameInput.config
  · exact move.config_eq

/-- Settles O36: the engine has no step in a state that is not busy. -/
theorem waitingLosesNoState : Obligations.WaitingLosesNoState :=
  fun _ idle => engineStep_of_not_busy idle

/-- Settles O38: what the decoder reads is what the engine's step fetches, and the engine steps
when the host has no move. -/
theorem stepRunsTheDecodedInstruction : Obligations.StepRunsTheDecodedInstruction := by
  refine ⟨fun s i bytes waiting phase len read decoded => ?_,
    fun s i bytes waiting phase bound read decoded => ?_,
    fun s i code waiting phase bound read => ⟨fun short decoded => ?_,
      fun extended bound' bytes read' decoded => ?_⟩,
    fun s waiting => step_of_no_moves waiting, fun s m ms moves => step_of_move moves,
    fun s => rfl⟩
  · rw [step_of_no_moves waiting, engineStep_header phase,
      State.fetchHeader_of_decode len read decoded, State.runFetched]
  · rw [step_of_no_moves waiting, engineStep_literal phase,
      State.fetchLiteral_of_decode bound read decoded, State.runFetched]
  · rw [step_of_no_moves waiting, engineStep_backref phase,
      State.fetchBackref_of_short bound read short decoded, State.runFetched]
  · rw [step_of_no_moves waiting, engineStep_backref phase,
      State.fetchBackref_of_extended bound read extended bound' read' decoded, State.runFetched]

/-- Settles O42: each move of the host by its own test. -/
theorem hostAccessWindows : Obligations.HostAccessWindows := fun _ =>
  ⟨fun busy _ _ _ => ⟨whenNotBusy_busy busy _, whenNotBusy_busy busy _⟩,
    fun idle _ _ _ => ⟨whenNotBusy_idle idle _, whenNotBusy_idle idle _⟩,
    hostReadOut_notDone,
    fun ended _ => ⟨hostReadOut_aboveResult ended, fun below _ read =>
      hostReadOut_of_read ended below read⟩⟩

/-- Settles O44: reset leaves both memories empty and IDLE with no error and no result. -/
theorem resetMeetsTheInvariant : Obligations.ResetMeetsTheInvariant where
  inWf := reset_inMem_wf
  outWf := reset_outMem_wf
  inSpace := nofun
  outSpace := nofun
  phase := ⟨rfl, rfl⟩

end Sys2Proof.Machine
end
